-- ==== Sys2Proof/Word.lean ====
section
/-! DEFINITION. The widths of every value in the hardware (00_scope.md R5, R7): bytes of 8 bits, words of 32 bits, long
words of 64 bits, all unsigned, bit 0 the least significant. -/

namespace Sys2Proof

/-- A byte, the unit of input and of output (20_memory.md R30). -/
abbrev Byte := BitVec 8

/-- A 32-bit word: the width of H, W, K, IV and a..h (00_scope.md R5, WORD_BITS). -/
abbrev Word := BitVec 32

/-- A 64-bit long word: the width of BITLEN (00_scope.md R5, LEN_BITS). -/
abbrev LongWord := BitVec 64

/-- A packet as it stands on a command port: the header byte and then the payload bytes (30_encoding.md R45). Its length
is told by the transport's `last` mark alone, so a packet is just its bytes. -/
abbrev Packet := List Byte

end Sys2Proof
end

