-- ==== Sys2Proof/Config.lean ====
section
/-! DEFINITION. What is fixed for an implementation: the two ROM tables (10_state.md R14, R15, R23), the open parameter
MAX_PAYLOAD_BYTES (00_scope.md R6), and the free values a register holds at power-on, before the first reset
(70_reset_and_hazards.md R148). -/

namespace Sys2Proof.Config

/-- The ROM IV[0..7] (10_state.md R15, the table's values). -/
def IV : Vector Word 8 :=
  #v[0x6a09e667, 0xbb67ae85, 0x3c6ef372, 0xa54ff53a, 0x510e527f, 0x9b05688c, 0x1f83d9ab, 0x5be0cd19]

/-- The table of 10_state.md R14, row by row: sixteen rows of four words. -/
def kRows : Vector (Vector Word 4) 16 :=
  #v[#v[0x428a2f98, 0x71374491, 0xb5c0fbcf, 0xe9b5dba5],
    #v[0x3956c25b, 0x59f111f1, 0x923f82a4, 0xab1c5ed5],
    #v[0xd807aa98, 0x12835b01, 0x243185be, 0x550c7dc3],
    #v[0x72be5d74, 0x80deb1fe, 0x9bdc06a7, 0xc19bf174],
    #v[0xe49b69c1, 0xefbe4786, 0x0fc19dc6, 0x240ca1cc],
    #v[0x2de92c6f, 0x4a7484aa, 0x5cb0a9dc, 0x76f988da],
    #v[0x983e5152, 0xa831c66d, 0xb00327c8, 0xbf597fc7],
    #v[0xc6e00bf3, 0xd5a79147, 0x06ca6351, 0x14292967],
    #v[0x27b70a85, 0x2e1b2138, 0x4d2c6dfc, 0x53380d13],
    #v[0x650a7354, 0x766a0abb, 0x81c2c92e, 0x92722c85],
    #v[0xa2bfe8a1, 0xa81a664b, 0xc24b8b70, 0xc76c51a3],
    #v[0xd192e819, 0xd6990624, 0xf40e3585, 0x106aa070],
    #v[0x19a4c116, 0x1e376c08, 0x2748774c, 0x34b0bcb5],
    #v[0x391c0cb3, 0x4ed8aa4a, 0x5b9cca4f, 0x682e6ff3],
    #v[0x748f82ee, 0x78a5636f, 0x84c87814, 0x8cc70208],
    #v[0x90befffa, 0xa4506ceb, 0xbef9a3f7, 0xc67178f2]]

/-- The ROM K[0..63]: row r, column c of the table is K[4r + c] (10_state.md R14). -/
def K : Vector Word 64 := Vector.ofFn fun i => kRows[i.val / 4][i.val % 4]

/-- MAX_PAYLOAD_BYTES: the spec's default, unbounded (00_scope.md R6; 92_eei_decisions.md D23). A platform's finite bound
`some n` is the argument of `decodeWith` and `Machine.receiveWith`. DESIGN CHOICE, log 8. -/
def maxPayloadBytes : Option Nat := none

/-- Free value: H between power-on and the first reset (70_reset_and_hazards.md R148; log 7). -/
opaque powerOnH : Vector Word 8

/-- Free value: the 64 bytes of BUF between power-on and the first write of each (log 7). -/
opaque powerOnBuf : Vector Byte 64

/-- Free value: the 6-bit BUFLEN between power-on and the first reset (log 7). -/
opaque powerOnBuflen : BitVec 6

/-- Free value: BITLEN between power-on and the first reset (log 7). -/
opaque powerOnBitlen : LongWord

end Sys2Proof.Config
end

