-- ==== Sys2Proof/Syntax.lean ====
section
/-! DEFINITION. The six host commands (30_encoding.md R46, R47), one constructor for each row of spec/opcode_table.json. -/

namespace Sys2Proof

/-- A host command. A payload is the byte sequence `data`, of any length (30_encoding.md R48). -/
inductive Instr where
  /-- INIT: put the engine into the initial state (41_accumulator.md R65). -/
  | init
  /-- UPDATE: feed bytes to the accumulator (41_accumulator.md R66). -/
  | update (data : List Byte)
  /-- DIGEST: the digest of everything fed so far, as bytes (43_finalizer.md R103). -/
  | digest
  /-- HEXDIGEST: the same digest as hexadecimal characters (43_finalizer.md R104). -/
  | hexdigest
  /-- DIGEST_OF: the digest of the payload, as bytes (44_oneshot.md R115). -/
  | digestOf (data : List Byte)
  /-- HEX_DIGEST_OF: the digest of the payload as hexadecimal characters (44_oneshot.md R116). -/
  | hexDigestOf (data : List Byte)
  deriving DecidableEq, Repr

end Sys2Proof
end

