-- ==== Sys2Proof/WellFormed.lean ====
section
/-! DEFINITION. Which commands are well formed: those whose payload keeps to MAX_PAYLOAD_BYTES (30_encoding.md R48, R50
case 5). Nothing else can be wrong with a command, since its payload is any byte sequence. -/

namespace Sys2Proof

/-- The payload a command carries: empty for INIT, DIGEST and HEXDIGEST, which have no operand (30_encoding.md R48). -/
def Instr.payload : Instr → List Byte
  | .init => []
  | .update data => data
  | .digest => []
  | .hexdigest => []
  | .digestOf data => data
  | .hexDigestOf data => data

/-- `n` payload bytes are within the bound; `none` is "unbounded" (00_scope.md R6, MAX_PAYLOAD_BYTES). -/
def payloadWithin (bound : Option Nat) (n : Nat) : Bool :=
  match bound with
  | none => true
  | some b => decide (n ≤ b)

/-- The command is well formed on a platform whose MAX_PAYLOAD_BYTES is `bound`. -/
def Instr.wfWith (bound : Option Nat) (i : Instr) : Bool :=
  payloadWithin bound i.payload.length

/-- The command is well formed on the configured platform. -/
def Instr.wf (i : Instr) : Bool :=
  i.wfWith Config.maxPayloadBytes

end Sys2Proof
end

