-- ==== Sys2Proof/Decode.lean ====
section
/-! DEFINITION. The packet decoder, total on any byte sequence, rejecting by name (30_encoding.md R45 to R50; the order of
the checks 60_exceptions.md R130), and the encoder written from the same table. -/

namespace Sys2Proof

/-- Why a packet spells no command: the five cases of 30_encoding.md R50, in its order. Each is the one exception
InvalidInput (60_exceptions.md R125); the response does not say which case it was. -/
inductive InvalidInput where
  /-- Case 1: the packet has no header. -/
  | emptyPacket
  /-- Case 2: a reserved header bit is set. -/
  | reservedBits
  /-- Case 3: operation code 000 or 111. -/
  | reservedOperation
  /-- Case 4: a payload on INIT, DIGEST or HEXDIGEST. -/
  | unexpectedPayload
  /-- Case 5: a payload longer than MAX_PAYLOAD_BYTES. -/
  | payloadTooLong
  deriving DecidableEq, Repr

/-- What the decoder makes of a packet: exactly one command, or invalid for the first reason that applies. -/
inductive Decoded where
  | command (i : Instr)
  | invalid (why : InvalidInput)
  deriving DecidableEq, Repr

/-- Header field RSV, P[0][7:3] (30_encoding.md R45). -/
def headerRsv (header : Byte) : BitVec 5 := header.extractLsb' 3 5

/-- Header field OP, P[0][2:0] (30_encoding.md R45). -/
def headerOp (header : Byte) : BitVec 3 := header.extractLsb' 0 3

/-- A command that has no operand: any payload byte makes the packet invalid (30_encoding.md R50 case 4). -/
def decodeBare (i : Instr) (data : List Byte) : Decoded :=
  if data.isEmpty then .command i else .invalid .unexpectedPayload

/-- The operation codes (30_encoding.md R47); 000 and 111 are reserved (R50 case 3). -/
def decodeOp (op : BitVec 3) (data : List Byte) : Decoded :=
  if op = 0b001#3 then decodeBare .init data
  else if op = 0b010#3 then .command (.update data)
  else if op = 0b011#3 then decodeBare .digest data
  else if op = 0b100#3 then decodeBare .hexdigest data
  else if op = 0b101#3 then .command (.digestOf data)
  else if op = 0b110#3 then .command (.hexDigestOf data)
  else .invalid .reservedOperation

/-- The bound on the payload, the last check (30_encoding.md R50 case 5). -/
def checkBound (bound : Option Nat) (d : Decoded) : Decoded :=
  match d with
  | .command i => if i.wfWith bound then .command i else .invalid .payloadTooLong
  | .invalid why => .invalid why

/-- The decoder of a platform whose MAX_PAYLOAD_BYTES is `bound`. -/
def decodeWith (bound : Option Nat) (p : Packet) : Decoded :=
  match p with
  | [] => .invalid .emptyPacket
  | header :: data =>
    if headerRsv header ≠ 0#5 then .invalid .reservedBits
    else checkBound bound (decodeOp (headerOp header) data)

/-- The decoder of the configured platform. -/
def decode (p : Packet) : Decoded :=
  decodeWith Config.maxPayloadBytes p

/-- The operation code of a command (30_encoding.md R47). -/
def opcodeOf : Instr → BitVec 3
  | .init => 0b001#3
  | .update _ => 0b010#3
  | .digest => 0b011#3
  | .hexdigest => 0b100#3
  | .digestOf _ => 0b101#3
  | .hexDigestOf _ => 0b110#3

/-- The header byte of a command: RSV zero above OP (30_encoding.md R45). -/
def headerOf (i : Instr) : Byte := 0#5 ++ opcodeOf i

/-- The packet of a command: its header byte followed by its payload bytes (30_encoding.md R45, R55). -/
def encode (i : Instr) : Packet := headerOf i :: i.payload

/-- The bytes of an opcode-table word of `nbits` bits, first byte first: bit 0 of `w` is the least significant bit of the
first byte. -/
def tableBytes (nbits w : Nat) : Packet :=
  (List.range ((nbits + 7) / 8)).map fun k => BitVec.ofNat 8 (w >>> (8 * k))

/-- The command the decoder reads from an opcode-table word, as the packet of exactly those bytes (an operand payload that
the table gives no bits is empty). -/
def decodeTableWord (nbits w : Nat) : Option Instr :=
  match decode (tableBytes nbits w) with
  | .command i => some i
  | .invalid _ => none

end Sys2Proof
end

