-- ==== Sys2Proof/Machine/State.lean ====
section
/-! DEFINITION. The state of one engine (10_state.md), its two ports as plain data, the reasons a step can stop, and the
state after reset. -/

namespace Sys2Proof.Machine

/-- The architectural state of one engine, the triple (H, MB, BITLEN) of 10_state.md R10 and R27. `mb` is
MB = BUF[0..BUFLEN-1], oldest byte first, and BUFLEN is its length; the bytes of BUF at and above BUFLEN "are not part of
the state" (R12; U4; log 4). The one-shot unit's scratch context has the same shape (R20). -/
structure Engine where
  /-- H[0..7], the HashState (R11). -/
  h : Vector Word 8
  /-- MB, the pending bytes of the MessageBuffer (R12). -/
  mb : List Byte
  /-- BITLEN, the BitLengthCounter, wrapping (R13). -/
  bitlen : LongWord
  deriving DecidableEq, Repr

/-- The status of a response (30_encoding.md R49). No other value is ever produced. -/
inductive Status where
  /-- STATUS_OK. -/
  | ok
  /-- STATUS_INVALID_INPUT. -/
  | invalidInput
  deriving DecidableEq, Repr

/-- The one response to one packet: its status and its result bytes (30_encoding.md R49). -/
structure Response where
  status : Status
  result : List Byte
  deriving DecidableEq, Repr

/-- What the host does to the engine (70_reset_and_hazards.md R156). -/
inductive HostEvent where
  /-- A packet delivered completely, its last byte marked (30_encoding.md R45, 70_reset_and_hazards.md R151). -/
  | packet (bytes : Packet)
  /-- The reset signal. `lost` is the packet then under way, if any: being delivered or being executed. It has no effect and
  no response (70_reset_and_hazards.md R145). -/
  | reset (lost : Option Packet)
  deriving DecidableEq, Repr

/-- One engine with its two ports. `live` is all of the spec's state; `port` and `responses` are the model's own, carrying
the inputs and the outputs of a step that has neither (logs 1 and 2). -/
structure State where
  /-- The live state of the engine (00_scope.md R9). -/
  live : Engine
  /-- What the host does from here on, the next event first. -/
  port : List HostEvent
  /-- The responses given so far, in order: the observation of the run (70_reset_and_hazards.md R149). -/
  responses : List Response
  deriving DecidableEq, Repr

/-- Reasons to stop with a fault. There is none, and no constructor: the one exception, InvalidInput, is taken as a next
state (60_exceptions.md R127, R131), and the hardware has no hang and no stuck state (70_reset_and_hazards.md R149). -/
inductive Fault where
  deriving DecidableEq, Repr

/-- Reasons to give a command no meaning. -/
inductive Refusal where
  /-- Raised by an arm of `exec` whose command has no meaning yet; no arm is left that raises it. Safe: a refusal claims
  nothing about the hardware. -/
  | notModelled (mnemonic : String)
  deriving DecidableEq, Repr

/-- The initial state of an engine, what creation, reset and INIT give: HashState = initial constants, MessageBuffer empty,
BitLengthCounter = 0 (10_state.md R28). -/
def Engine.initial : Engine where
  h := Config.IV
  mb := []
  bitlen := 0

/-- The machine right after reset (10_state.md R28, 70_reset_and_hazards.md R145): the initial state, no response given, and
nothing yet from the host. -/
def State.reset : State where
  live := Engine.initial
  port := []
  responses := []

end Sys2Proof.Machine
end

