-- ==== Sys2Proof/Machine/Ops.lean ====
section
/-! DEFINITION. The named operations over the state: reading BUFLEN, storing the live state, giving the one response to a
packet, taking the exception InvalidInput, and reset. -/

namespace Sys2Proof.Machine

/-- BUFLEN as the 6-bit register it is (10_state.md R12). For 64 or more pending bytes, no state of the hardware, it is their
number modulo 64, the model's choice (DESIGN CHOICE, log 18). -/
def Engine.buflen (e : Engine) : BitVec 6 := BitVec.ofNat 6 e.mb.length

/-- Store the live state (H, MB, BITLEN), all of it together (20_memory.md R39). -/
def State.withLive (s : State) (e : Engine) : State := { s with live := e }

/-- Give one response (30_encoding.md R49), after every earlier one (20_memory.md R40). -/
def State.respond (s : State) (r : Response) : State := { s with responses := s.responses ++ [r] }

/-- The event at the head of the port is over. -/
def State.withPort (s : State) (events : List HostEvent) : State := { s with port := events }

/-- A command completes: the response STATUS_OK with these result bytes (30_encoding.md R49). -/
def complete (s : State) (result : List Byte) : Host.Outcome State Fault Refusal :=
  .next (s.respond ⟨.ok, result⟩)

/-- Taking the exception InvalidInput (60_exceptions.md R127): the response `01` with no result byte, no architectural state
written, nothing saved, control goes nowhere. There is nothing to return from (R131), so no return stands beside it: the
state after it already is the ordinary resting condition. -/
def raiseInvalidInput (s : State) : Host.Outcome State Fault Refusal :=
  .next (s.respond ⟨.invalidInput, []⟩)

/-- Reset (70_reset_and_hazards.md R145): the engine takes the initial state; the packet under way, if any, is lost with no
effect and no response. The responses the host already has stay its own (log 6). -/
def resetEngine (_lost : Option Packet) (s : State) : Host.Outcome State Fault Refusal :=
  .next (s.withLive Engine.initial)

end Sys2Proof.Machine
end

