-- ==== Sys2Proof/Machine/Operands.lean ====
section
/-! DEFINITION. The forms in which bytes become words and words become bytes, all big-endian (20_memory.md R32 to R36), and
the cutting of a byte sequence into 64-byte blocks (30_encoding.md R51). -/

namespace Sys2Proof.Machine

/-- `word_be(s, k)`: the big-endian word at byte offset k of s (00_scope.md R8, 20_memory.md R32). Used only where s has
the four bytes; a byte past the end of s would count as 0 (log 9). -/
def wordBE (s : List Byte) (k : Nat) : Word :=
  s.getD k 0 ++ s.getD (k + 1) 0 ++ s.getD (k + 2) 0 ++ s.getD (k + 3) 0

/-- `be32(v)`: the four bytes of a word, most significant first (00_scope.md R8). -/
def be32 (v : Word) : List Byte :=
  [v.extractLsb' 24 8, v.extractLsb' 16 8, v.extractLsb' 8 8, v.extractLsb' 0 8]

/-- `be64(v)`: the eight bytes of a long word, most significant first (00_scope.md R8, 20_memory.md R33). -/
def be64 (v : LongWord) : List Byte :=
  [v.extractLsb' 56 8, v.extractLsb' 48 8, v.extractLsb' 40 8, v.extractLsb' 32 8,
    v.extractLsb' 24 8, v.extractLsb' 16 8, v.extractLsb' 8 8, v.extractLsb' 0 8]

/-- Eight words as 32 bytes, word 0 first, each big-endian (20_memory.md R34, 30_encoding.md R53). -/
def serialize (f : Vector Word 8) : List Byte := f.toList.flatMap be32

/-- `s[i..i+n)`: the n bytes of s from index i on (00_scope.md R7). -/
def slice (s : List Byte) (i n : Nat) : List Byte := (s.drop i).take n

/-- The whole 64-byte blocks of s, in order: s[0..64), s[64..128), ... (41_accumulator.md R70, 43_finalizer.md R110). -/
def blocksOf (s : List Byte) : List (List Byte) :=
  (List.range (s.length / 64)).map fun k => slice s (64 * k) 64

end Sys2Proof.Machine
end

