-- ==== Sys2Proof/Machine/Compression.lean ====
section
/-! DEFINITION. Unit CF: the word arithmetic, the six word functions and the operation COMPRESS (42_compression.md R80 to
R95). -/

namespace Sys2Proof.Machine

/-- Addition of words modulo 2^32 (R80). -/
def add32 (x y : Word) : Word := x + y

/-- Circular right rotation, by the source's formula (R81). The amounts used are constants between 2 and 25; for 0 or for
32 and more the hardware gives it no meaning; there this definition gives x, the model's choice, never so called.
DESIGN CHOICE, log 10. -/
def rotr (x : Word) (n : Nat) : Word := (x >>> n) ||| (x <<< (32 - n))

/-- Logical right shift (R82). The spec defines it for 0 <= n <= 31 and the amounts used are 3 and 10; for n >= 32 it assumes
no value (91_not_in_source.md N18) and this definition gives 0, the model's choice, never so called.
DESIGN CHOICE, log 10. -/
def shr (x : Word) (n : Nat) : Word := x >>> n

/-- σ0 (R84). -/
def ssig0 (x : Word) : Word := rotr x 7 ^^^ rotr x 18 ^^^ shr x 3

/-- σ1 (R85). -/
def ssig1 (x : Word) : Word := rotr x 17 ^^^ rotr x 19 ^^^ shr x 10

/-- Σ0 (R86). -/
def bsig0 (x : Word) : Word := rotr x 2 ^^^ rotr x 13 ^^^ rotr x 22

/-- Σ1 (R87). -/
def bsig1 (x : Word) : Word := rotr x 6 ^^^ rotr x 11 ^^^ rotr x 25

/-- Ch, choose (R88). -/
def ch (x y z : Word) : Word := (x &&& y) ^^^ (~~~x &&& z)

/-- Maj, majority (R89). -/
def maj (x y z : Word) : Word := (x &&& y) ^^^ (x &&& z) ^^^ (y &&& z)

/-- Step 1: W[0..15], the sixteen big-endian words of the block (R90). -/
def loadBlock (b : List Byte) : List Word := (List.range 16).map fun i => wordBE b (4 * i)

/-- The word W[i] that follows W[0..i-1], for i >= 16 (R91); for fewer words before it, see log 9 (DESIGN CHOICE). -/
def nextScheduleWord (w : List Word) : Word :=
  let i := w.length
  add32 (add32 (add32 (ssig1 (w.getD (i - 2) 0)) (w.getD (i - 7) 0)) (ssig0 (w.getD (i - 15) 0)))
    (w.getD (i - 16) 0)

/-- Step 2: append n further words, each from the words before it (R91). -/
def extendSchedule : Nat → List Word → List Word
  | 0, w => w
  | n + 1, w => extendSchedule n (w ++ [nextScheduleWord w])

/-- The message schedule W[0..63]: 16 words loaded, 48 computed (R90, R91; the range of R97). -/
def schedule (b : List Byte) : List Word := extendSchedule 48 (loadBlock b)

/-- The working registers a..h (10_state.md R16): scratch of one COMPRESS. -/
structure WorkRegs where
  a : Word
  b : Word
  c : Word
  d : Word
  e : Word
  f : Word
  g : Word
  h : Word
  deriving DecidableEq, Repr

/-- Step 3: the working registers from the state, in order (R92). -/
def loadRegs (hin : Vector Word 8) : WorkRegs :=
  ⟨hin[0], hin[1], hin[2], hin[3], hin[4], hin[5], hin[6], hin[7]⟩

/-- T1 of a round with round constant k and schedule word w (R93). -/
def roundT1 (k w : Word) (r : WorkRegs) : Word :=
  add32 (add32 (add32 (add32 r.h (bsig1 r.e)) (ch r.e r.f r.g)) k) w

/-- T2 of a round (R93). -/
def roundT2 (r : WorkRegs) : Word := add32 (bsig0 r.a) (maj r.a r.b r.c)

/-- One round: the eight assignments, taken simultaneously (R93). -/
def roundStep (r : WorkRegs) (k w : Word) : WorkRegs :=
  { a := add32 (roundT1 k w r) (roundT2 r), b := r.a, c := r.b, d := r.c,
    e := add32 r.d (roundT1 k w r), f := r.e, g := r.f, h := r.g }

/-- Step 4: the first n rounds, round t with K[t] and W[t] (R93). -/
def runRounds (n : Nat) (w : List Word) (r : WorkRegs) : WorkRegs :=
  ((Config.K.toList.zip w).take n).foldl (fun r kw => roundStep r kw.1 kw.2) r

/-- Step 5: add the post-round registers back into the state the operation started from (R94). -/
def feedForward (hin : Vector Word 8) (r : WorkRegs) : Vector Word 8 :=
  #v[add32 hin[0] r.a, add32 hin[1] r.b, add32 hin[2] r.c, add32 hin[3] r.d,
    add32 hin[4] r.e, add32 hin[5] r.f, add32 hin[6] r.g, add32 hin[7] r.h]

/-- COMPRESS(Hin, B), pure: steps 1 to 5, 64 rounds (R95, R96). B is a block of 64 bytes; for any
other length, see log 9 (DESIGN CHOICE). -/
def compress (hin : Vector Word 8) (b : List Byte) : Vector Word 8 :=
  feedForward hin (runRounds 64 (schedule b) (loadRegs hin))

end Sys2Proof.Machine
end

