-- ==== Sys2Proof/Machine/Accumulator.lean ====
section
/-! DEFINITION. Unit ACC: the commands INIT and UPDATE (41_accumulator.md R65, R66). -/

namespace Sys2Proof.Machine

/-- The loop of UPDATE: while at least 64 bytes are pending, fold the leading 64 into H (R66). Each pass removes 64 bytes,
so a fuel of the number of pending bytes never runs out. -/
def absorb : Nat → Vector Word 8 → List Byte → Vector Word 8 × List Byte
  | 0, h, s => (h, s)
  | fuel + 1, h, s =>
    if 64 ≤ s.length then absorb fuel (compress h (s.take 64)) (s.drop 64) else (h, s)

/-- BITLEN after n more payload bytes: the sum on natural numbers, reduced modulo 2^64 (R66, R72). -/
def countBits (bitlen : LongWord) (n : Nat) : LongWord := BitVec.ofNat 64 (bitlen.toNat + 8 * n)

/-- UPDATE on a context (H, MB, BITLEN): append, count, absorb (R66). -/
def Engine.update (e : Engine) (data : List Byte) : Engine :=
  let s := e.mb ++ data
  let r := absorb s.length e.h s
  { h := r.1, mb := r.2, bitlen := countBits e.bitlen data.length }

/-- INIT (R65): the initial state from any state; response `00`. -/
def execInit (s : State) : Host.Outcome State Fault Refusal :=
  complete (s.withLive Engine.initial) []

/-- UPDATE data (R66): the live context absorbs the payload; response `00`. -/
def execUpdate (data : List Byte) (s : State) : Host.Outcome State Fault Refusal :=
  complete (s.withLive (s.live.update data)) []

end Sys2Proof.Machine
end

