-- ==== Sys2Proof/Machine/Finalizer.lean ====
section
/-! DEFINITION. Unit FIN: the operations PAD, FINALIZE and HEXENC and the commands DIGEST and HEXDIGEST (43_finalizer.md
R100 to R108). -/

namespace Sys2Proof.Machine

/-- z = (55 - L) mod 64, the number of zero bytes in the padding (R100). R100 has 0 <= L <= 63; the same formula for a longer
L is the model's choice, in states that are none of the hardware (DESIGN CHOICE, log 18). -/
def zeroFill (l : Nat) : Nat := (((55 : Int) - (l : Int)) % 64).toNat

/-- PAD(L, N): 0x80, z zero bytes, the counter as eight big-endian bytes (R100). -/
def pad (l : Nat) (n : LongWord) : List Byte := [0x80] ++ List.replicate (zeroFill l) 0x00 ++ be64 n

/-- PM, the padded tail of the pending bytes M (R102; its layout 30_encoding.md R52). -/
def paddedTail (m : List Byte) (n : LongWord) : List Byte := m ++ pad m.length n

/-- HS after the padded tail's blocks, one or two, in order of increasing k, starting from a copy of the state (R102,
R108). -/
def finalWords (hin : Vector Word 8) (m : List Byte) (n : LongWord) : Vector Word 8 :=
  let pm := paddedTail m n
  (List.range (pm.length / 64)).foldl (fun hs k => compress hs (slice pm (64 * k) 64)) hin

/-- FINALIZE(Hin, M, N): 32 bytes, a pure function of its operands (R102). -/
def finalize (hin : Vector Word 8) (m : List Byte) (n : LongWord) : List Byte :=
  serialize (finalWords hin m n)

/-- The character of one hexadecimal digit, as the byte of its ASCII code, lower case (R107). -/
def hexDigit (v : BitVec 4) : Byte :=
  if v.toNat ≤ 9 then BitVec.ofNat 8 (0x30 + v.toNat) else BitVec.ofNat 8 (0x61 + (v.toNat - 10))

/-- HEXENC(s): two characters per byte, most significant nibble first (R107). -/
def hexEnc (s : List Byte) : List Byte :=
  s.flatMap fun b => [hexDigit (b.extractLsb' 4 4), hexDigit (b.extractLsb' 0 4)]

/-- The digest of a context (H, MB, BITLEN), which is only read (R103). -/
def Engine.digest (e : Engine) : List Byte := finalize e.h e.mb e.bitlen

/-- DIGEST (R103): 32 result bytes; H, MB and BITLEN are not written (R105). -/
def execDigest (s : State) : Host.Outcome State Fault Refusal :=
  complete s s.live.digest

/-- HEXDIGEST (R104): 64 result characters; H, MB and BITLEN are not written (R105). -/
def execHexdigest (s : State) : Host.Outcome State Fault Refusal :=
  complete s (hexEnc s.live.digest)

end Sys2Proof.Machine
end

