-- ==== Sys2Proof/Machine/OneShot.lean ====
section
/-! DEFINITION. Unit OS: the commands DIGEST_OF and HEX_DIGEST_OF, on a scratch context of their own (44_oneshot.md R115 to
R118). -/

namespace Sys2Proof.Machine

/-- The scratch context (OH, OMB, OBITLEN): a fresh engine after one UPDATE of the payload (R115; 10_state.md R20). -/
def oneShotContext (data : List Byte) : Engine := Engine.initial.update data

/-- The digest of a payload (R115), a pure function of it (R117). -/
def digestOfPayload (data : List Byte) : List Byte := (oneShotContext data).digest

/-- DIGEST_OF data (R115): 32 result bytes; the live state is neither read nor written (R118). -/
def execDigestOf (data : List Byte) (s : State) : Host.Outcome State Fault Refusal :=
  complete s (digestOfPayload data)

/-- HEX_DIGEST_OF data (R116): 64 result characters; the live state is neither read nor written (R118). -/
def execHexDigestOf (data : List Byte) (s : State) : Host.Outcome State Fault Refusal :=
  complete s (hexEnc (digestOfPayload data))

end Sys2Proof.Machine
end

