-- ==== Sys2Proof/Machine/Dispatch.lean ====
section
/-! DEFINITION. The dispatch: one arm per command of spec/opcode_table.json, each a direct call of that command's meaning. -/

namespace Sys2Proof.Machine

def exec (i : Instr) (s : State) : Host.Outcome State Fault Refusal :=
  match i with
  | .init => Sys2Proof.Machine.execInit s
  | .update data => Sys2Proof.Machine.execUpdate data s
  | .digest => Sys2Proof.Machine.execDigest s
  | .hexdigest => Sys2Proof.Machine.execHexdigest s
  | .digestOf data => Sys2Proof.Machine.execDigestOf data s
  | .hexDigestOf data => Sys2Proof.Machine.execHexDigestOf data s

end Sys2Proof.Machine
end

