-- ==== Sys2Proof/Machine/Port.lean ====
section
/-! DEFINITION. The command port: what one host event does to the engine (30_encoding.md R45, R50; 60_exceptions.md R127;
70_reset_and_hazards.md R145), and sequences of commands (20_memory.md R40). -/

namespace Sys2Proof.Machine

/-- A complete packet arrives, on a platform whose MAX_PAYLOAD_BYTES is `bound`: it is decoded, and then either its command
executes or InvalidInput is raised before anything is written (30_encoding.md R50, 60_exceptions.md R125). -/
def receiveWith (bound : Option Nat) (p : Packet) (s : State) : Host.Outcome State Fault Refusal :=
  match decodeWith bound p with
  | .command i => exec i s
  | .invalid _ => raiseInvalidInput s

/-- A complete packet arrives, on the configured platform. -/
def receive (p : Packet) (s : State) : Host.Outcome State Fault Refusal :=
  receiveWith Config.maxPayloadBytes p s

/-- One host event takes effect, whole (20_memory.md R39). -/
def handle (e : HostEvent) (s : State) : Host.Outcome State Fault Refusal :=
  match e with
  | .packet p => receive p s
  | .reset lost => resetEngine lost s

/-- The next host event is taken off the port and takes effect. With nothing on the port the engine is idle and its state
stays intact (60_exceptions.md R136; log 3). -/
def serve (s : State) : Host.Outcome State Fault Refusal :=
  match s.port with
  | [] => .next s
  | e :: rest => handle e (s.withPort rest)

/-- Put a packet at the head of the port, where the next step takes it. -/
def placePacket (s : State) (p : Packet) : State := s.withPort (.packet p :: s.port)

/-- A sequence of commands: the left-to-right composition of the command rules (20_memory.md R40). -/
def execAll : List Instr → State → Host.Outcome State Fault Refusal
  | [], s => .next s
  | i :: rest, s =>
    match exec i s with
    | .next t => execAll rest t
    | .fault r => .fault r
    | .refused r => .refused r

/-- A sequence of host events, each taking effect whole, in order (70_reset_and_hazards.md R149). -/
def serveAll : List HostEvent → State → Host.Outcome State Fault Refusal
  | [], s => .next s
  | e :: rest, s =>
    match handle e s with
    | .next t => serveAll rest t
    | .fault r => .fault r
    | .refused r => .refused r

end Sys2Proof.Machine
end

