-- ==== Sys2Proof/Machine/Step.lean ====
section
/-! DEFINITION. One step of the machine: one whole host event (00_scope.md R4), and the placing of an opcode-table word where
the next step takes its command from. -/

namespace Sys2Proof.Machine

/-- One step: the next host event takes effect, whole (00_scope.md R4). -/
def step (s : State) : Host.Outcome State Fault Refusal := serve s

/-- `s` with the packet of an opcode-table word at the head of its command port. -/
def State.withFetchWord (s : State) (nbits w : Nat) : State :=
  placePacket s (tableBytes nbits w)

end Sys2Proof.Machine
end

