-- ==== Sys2Proof/Machine/Flags.lean ====
section
/-! DEFINITION. The hardware has no flag, no condition code and no sticky error bit (10_state.md R21). The outcome of a
command is carried by its response alone; here is that response as the bytes the host sees (30_encoding.md R49). -/

namespace Sys2Proof.Machine

/-- The status byte Q[0]: STATUS_OK = 0x00, STATUS_INVALID_INPUT = 0x01 (30_encoding.md R49). -/
def statusCode : Status → Byte
  | .ok => 0x00
  | .invalidInput => 0x01

/-- The response as the byte sequence Q on the response port: the status, then the result (30_encoding.md R49). -/
def responseBytes (r : Response) : List Byte := statusCode r.status :: r.result

/-- The observation of a run: what the response port has carried, one byte sequence per response
(70_reset_and_hazards.md R149). -/
def observation (s : State) : List (List Byte) := s.responses.map responseBytes

end Sys2Proof.Machine
end

