-- ==== Sys2Proof/Machine/Serial.lean ====
section
/-! DEFINITION. The physical form of the state, BUF as 64 bytes and BUFLEN as 6 bits (10_state.md R12), the byte-serial form
of UPDATE that runs on it (41_accumulator.md R67), and the state at power-on (70_reset_and_hazards.md R148). -/

namespace Sys2Proof.Machine

/-- The registers of an engine as they are built (10_state.md R10, R12). -/
structure Storage where
  h : Vector Word 8
  buf : Vector Byte 64
  buflen : BitVec 6
  bitlen : LongWord
  deriving DecidableEq, Repr

/-- The abstract view of the registers: MB = BUF[0..BUFLEN-1] (10_state.md R27). -/
def Storage.toEngine (st : Storage) : Engine where
  h := st.h
  mb := st.buf.toList.take st.buflen.toNat
  bitlen := st.bitlen

/-- `MemRead(addr, 4)`: the big-endian word of BUF at addr (00_scope.md R8). -/
def Storage.memRead (st : Storage) (addr : Nat) : Word := wordBE st.buf.toList addr

/-- `MemWrite(addr, 1, v)`: one byte into BUF (00_scope.md R8). -/
def Storage.memWrite (st : Storage) (addr : BitVec 6) (v : Byte) : Storage :=
  { st with buf := st.buf.set addr.toNat v addr.isLt }

/-- One payload byte of the byte-serial UPDATE: it goes to BUF[BUFLEN], and the block is taken the moment the 64th byte
arrives (41_accumulator.md R67). -/
def Storage.takeByte (st : Storage) (b : Byte) : Storage :=
  let st' := st.memWrite st.buflen b
  if st.buflen = 63#6 then { st' with h := compress st.h st'.buf.toList, buflen := 0#6 }
  else { st' with buflen := st.buflen + 1#6 }

/-- UPDATE(data), byte-serial (41_accumulator.md R67). -/
def Storage.update (st : Storage) (data : List Byte) : Storage :=
  let st' := data.foldl Storage.takeByte st
  { st' with bitlen := countBits st.bitlen data.length }

/-- INIT on the registers: the bytes of BUF are not cleared (41_accumulator.md R65, corner cases). -/
def Storage.init (st : Storage) : Storage :=
  { st with h := Config.IV, buflen := 0#6, bitlen := 0 }

/-- The registers between power-on and the first reset: free values (70_reset_and_hazards.md R148, U6; log 7). -/
def Storage.powerOn : Storage where
  h := Config.powerOnH
  buf := Config.powerOnBuf
  buflen := Config.powerOnBuflen
  bitlen := Config.powerOnBitlen

/-- The machine between power-on and the first reset or INIT, nothing yet from the host. -/
def State.powerOn : State where
  live := Storage.powerOn.toEngine
  port := []
  responses := []

end Sys2Proof.Machine
end

