-- ==== Sys2Proof/Machine/System.lean ====
section
/-! DEFINITION. A system of n engines of the same hardware (60_exceptions.md R137): the product of n models of one engine
(92_eei_decisions.md D22). They share only the ROMs, which are constants. -/

namespace Sys2Proof.Machine

/-- NUM_ENGINES = n engines, each with its own state and ports (60_exceptions.md R137). -/
abbrev System (n : Nat) := Vector State n

/-- Every engine starts in the initial state on reset (60_exceptions.md R137). -/
def resetSystem (n : Nat) : System n := Vector.replicate n State.reset

/-- Engine k takes its next step and the others stand still. Nothing orders the engines (20_memory.md R42), so a run of a
system is a run for some sequence of such choices. -/
def stepEngine {n : Nat} (sys : System n) (k : Fin n) : Host.Outcome (System n) Fault Refusal :=
  match step sys[k] with
  | .next s => .next (sys.set k s)
  | .fault r => .fault r
  | .refused r => .refused r

end Sys2Proof.Machine
end

