-- ==== Sys2Proof/Machine/Text.lean ====
section
/-! DEFINITION. The textual lines of 30_encoding.md R55: their terms, how each is written, the packet each one spells, and the
response each written answer stands for. It is the spec's way of writing programs down, no part of the machine (log 11). -/

namespace Sys2Proof.Machine

/-- A payload as a line writes it (R55). -/
inductive PayloadText where
  /-- A string in double quotes, each character one byte, its ASCII code. -/
  | quoted (chars : List Char)
  /-- Hex digit pairs separated by spaces. -/
  | hexPairs (bytes : List Byte)
  /-- `rep(0xNN, count)`. -/
  | rep (byte : Byte) (count : Nat)
  /-- `<>`. -/
  | empty
  /-- Two of these joined by `++`. -/
  | join (x y : PayloadText)
  deriving DecidableEq, Repr

/-- The byte of a written character: its ASCII code (00_scope.md R7, R55). A quoted string is an ASCII string; for a character
outside ASCII the spec gives no byte, and this definition gives its code point modulo 256, the model's choice.
DESIGN CHOICE, log 17. -/
def asciiByte (c : Char) : Byte := BitVec.ofNat 8 c.toNat

/-- The bytes a written payload stands for (R55), by `asciiByte` for a quoted string. -/
def payloadTextBytes : PayloadText → List Byte
  | .quoted chars => chars.map asciiByte
  | .hexPairs bytes => bytes
  | .rep byte count => List.replicate count byte
  | .empty => []
  | .join x y => payloadTextBytes x ++ payloadTextBytes y

/-- The words of a line after its engine number (R55). -/
inductive LineText where
  | init
  | update (payload : PayloadText)
  | digest
  | hexdigest
  | digestOf (payload : PayloadText)
  | hexDigestOf (payload : PayloadText)
  /-- `RAW`: a packet that spells no command. The term holds any bytes (DESIGN CHOICE, log 17). -/
  | raw (bytes : List Byte)
  deriving DecidableEq, Repr

/-- A line `[@k] MNEMONIC [payload]`; `@k` may be left out (R55). -/
structure Line where
  engine : Option Nat
  text : LineText
  deriving DecidableEq, Repr

/-- The packet of a line: its header byte followed by its payload bytes, or the bytes of a RAW line (R55). -/
def linePacket (l : Line) : Packet :=
  match l.text with
  | .init => encode .init
  | .update p => encode (.update (payloadTextBytes p))
  | .digest => encode .digest
  | .hexdigest => encode .hexdigest
  | .digestOf p => encode (.digestOf (payloadTextBytes p))
  | .hexDigestOf p => encode (.hexDigestOf (payloadTextBytes p))
  | .raw bytes => bytes

/-- A response as a line writes it after `->` (R55). -/
inductive AnswerText where
  /-- `OK`. -/
  | ok
  /-- `OK <32 bytes as 64 hex digits>`: the bytes the digits spell. -/
  | okBytes (bytes : List Byte)
  /-- `OK "<64 characters>"`. -/
  | okChars (chars : List Char)
  /-- `INVALID`. -/
  | invalid
  deriving DecidableEq, Repr

/-- The response a written answer stands for (R55, R49), by `asciiByte` for characters. -/
def answerResponse : AnswerText → Response
  | .ok => ⟨.ok, []⟩
  | .okBytes bytes => ⟨.ok, bytes⟩
  | .okChars chars => ⟨.ok, chars.map asciiByte⟩
  | .invalid => ⟨.invalidInput, []⟩

/-- Bytes as two lower-case hex digits each, in characters (R55). -/
def hexChars (bytes : List Byte) : List Char := (hexEnc bytes).map fun b => Char.ofNat b.toNat

/-- Hex digit pairs separated by spaces, in characters (R55). -/
def pairChars (bytes : List Byte) : List Char := [' '].intercalate (bytes.map fun b => hexChars [b])

/-- A payload as it is written (R55). R55 gives no escape for a double quote inside a string: it is written as it is
(DESIGN CHOICE, log 17). -/
def payloadChars : PayloadText → List Char
  | .quoted chars => ['"'] ++ chars ++ ['"']
  | .hexPairs bytes => pairChars bytes
  | .rep byte count => "rep(0x".toList ++ hexChars [byte] ++ ", ".toList ++ Nat.toDigits 10 count ++ [')']
  | .empty => "<>".toList
  | .join x y => payloadChars x ++ " ++ ".toList ++ payloadChars y

/-- A line as it is written (R55). -/
def lineChars (l : Line) : List Char :=
  let number := match l.engine with
    | none => []
    | some k => ['@'] ++ Nat.toDigits 10 k ++ [' ']
  number ++ match l.text with
    | .init => "INIT".toList
    | .update p => "UPDATE ".toList ++ payloadChars p
    | .digest => "DIGEST".toList
    | .hexdigest => "HEXDIGEST".toList
    | .digestOf p => "DIGEST_OF ".toList ++ payloadChars p
    | .hexDigestOf p => "HEX_DIGEST_OF ".toList ++ payloadChars p
    | .raw bytes => if bytes.isEmpty then "RAW".toList else "RAW ".toList ++ pairChars bytes

/-- A response as it is written after `->` (R55). -/
def answerChars : AnswerText → List Char
  | .ok => "OK".toList
  | .okBytes bytes => "OK ".toList ++ hexChars bytes
  | .okChars chars => "OK ".toList ++ ['"'] ++ chars ++ ['"']
  | .invalid => "INVALID".toList

end Sys2Proof.Machine
end

