-- ==== Sys2Proof/Machine/Transport.lean ====
section
/-! DEFINITION. The byte stream on a command port: the transport marks the last byte of each packet, and the engine tells a
packet's length from that mark alone (30_encoding.md R45, 70_reset_and_hazards.md R151). -/

namespace Sys2Proof.Machine

/-- One byte on a command port with the transport's `last` mark (R45). -/
structure Beat where
  byte : Byte
  last : Bool
  deriving DecidableEq, Repr

/-- The complete packets in a stream of bytes, in order, and the bytes of a packet not ended yet. `got` is what has arrived of
the packet under way. -/
def frame : List Byte → List Beat → List Packet × List Byte
  | got, [] => ([], got)
  | got, b :: rest =>
    if b.last then ((got ++ [b.byte]) :: (frame [] rest).1, (frame [] rest).2)
    else frame (got ++ [b.byte]) rest

/-- Bytes of a packet that is not ended. -/
def openBeats (bytes : List Byte) : List Beat := bytes.map fun b => ⟨b, false⟩

/-- A whole packet as the transport carries it, its last byte marked. A packet with no byte carries no mark and cannot be
framed (92_eei_decisions.md D6). -/
def beatsOf (p : Packet) : List Beat :=
  match p.getLast? with
  | none => []
  | some b => openBeats p.dropLast ++ [⟨b, true⟩]

/-- What a stream of bytes does to the engine: each complete packet in order, and nothing for a packet still arriving
(70_reset_and_hazards.md R151). -/
def serveBeats (beats : List Beat) (s : State) : Host.Outcome State Fault Refusal :=
  serveAll ((frame [] beats).1.map .packet) s

end Sys2Proof.Machine
end

