-- ==== Sys2Proof/Machine/Work.lean ====
section
/-! DEFINITION. The one measure of work the spec states: which blocks each command gives to COMPRESS, in order
(70_reset_and_hazards.md R155). -/

namespace Sys2Proof.Machine

/-- The bytes left pending after the whole blocks of s. -/
def tailOf (s : List Byte) : List Byte := s.drop (64 * (s.length / 64))

/-- The blocks a command gives to COMPRESS when it runs on a context (H, MB, BITLEN), in order (R155). -/
def compressedBlocks (i : Instr) (e : Engine) : List (List Byte) :=
  match i with
  | .init => []
  | .update data => blocksOf (e.mb ++ data)
  | .digest => blocksOf (paddedTail e.mb e.bitlen)
  | .hexdigest => blocksOf (paddedTail e.mb e.bitlen)
  | .digestOf data => blocksOf data ++ blocksOf (paddedTail (tailOf data) (countBits 0 data.length))
  | .hexDigestOf data => blocksOf data ++ blocksOf (paddedTail (tailOf data) (countBits 0 data.length))

end Sys2Proof.Machine
end

