-- ==== Sys2Proof/Safety.lean ====
section
/-! DEFINITION. What a well-formed state is and what a run may rely on, in the terms the statements use. -/

namespace Sys2Proof.Machine

/-- The invariants of 10_state.md R12 and R25 (3): fewer than 64 pending bytes, a whole number of bytes counted, and BUFLEN
the corresponding bits of BITLEN. -/
abbrev Engine.wf (e : Engine) : Prop :=
  e.mb.length < 64 ∧ e.bitlen.extractLsb' 0 3 = 0#3 ∧ e.buflen = e.bitlen.extractLsb' 3 6

/-- The state is well formed: its live state is. The ports hold any events and any responses. -/
abbrev State.wf (s : State) : Prop := s.live.wf

/-- The engine is in the initial state (10_state.md R28). -/
abbrev State.isInitial (s : State) : Prop := s.live = Engine.initial

/-- The outcome is a next state, and what it holds satisfies P. A safe run is one in which every step is of this kind. -/
abbrev Answers (o : Host.Outcome State Fault Refusal) (P : State → Prop) : Prop :=
  ∃ t, o = .next t ∧ P t

/-- The logical message once a command has followed it: the payloads of the UPDATE commands since the last INIT
(00_scope.md R9). -/
def messageWith (m : List Byte) (i : Instr) : List Byte :=
  match i with
  | .init => []
  | .update data => m ++ data
  | .digest | .hexdigest | .digestOf _ | .hexDigestOf _ => m

/-- The logical message after a sequence of commands from the initial state (00_scope.md R9). -/
def logicalMessage (cs : List Instr) : List Byte := cs.foldl messageWith []

/-- The logical message once a host event has followed it: an invalid packet leaves it (60_exceptions.md R127), a reset ends
it (70_reset_and_hazards.md R145). -/
def messageAfter (e : HostEvent) (m : List Byte) : List Byte :=
  match e with
  | .packet p => match decode p with
    | .command i => messageWith m i
    | .invalid _ => m
  | .reset _ => []

/-- The live state is the one that the logical message m leads to: COMPRESS folded from IV over the whole blocks of m, the
rest of m pending, and the bits of m counted modulo 2^64 (10_state.md R25 (1), (4), (5); 41_accumulator.md R70). -/
abbrev Engine.isStateOf (e : Engine) (m : List Byte) : Prop :=
  e.h = (blocksOf m).foldl compress Config.IV ∧ e.mb = m.drop (64 * (m.length / 64)) ∧
    e.bitlen = BitVec.ofNat 64 (8 * m.length)

/-- The command writes no live state: the four digest commands (43_finalizer.md R105, 44_oneshot.md R118). -/
def readsOnly : Instr → Bool
  | .init => false
  | .update _ => false
  | .digest => true
  | .hexdigest => true
  | .digestOf _ => true
  | .hexDigestOf _ => true

/-- The event is not an invalid packet (60_exceptions.md R132). -/
def eventIsValid : HostEvent → Bool
  | .packet p => match decode p with
    | .command _ => true
    | .invalid _ => false
  | .reset _ => true

/-- The sixteen digits "0123456789abcdef", each the byte of its ASCII code (43_finalizer.md R107). -/
def hexAlphabet : List Byte :=
  [0x30, 0x31, 0x32, 0x33, 0x34, 0x35, 0x36, 0x37, 0x38, 0x39, 0x61, 0x62, 0x63, 0x64, 0x65, 0x66]

end Sys2Proof.Machine
end

