-- ==== Sys2Proof/Certificates/Slice0/Obligations.lean ====
section
/-! DEFINITION. The statements about the machine, each with the rule of spec/ it formalises. Where a rule, or a clause of it,
is marked by the spec as its own derivation, decision or general knowledge, the docstring says so. -/

open Sys2Proof Sys2Proof.Machine

/-! ### Word arithmetic and word functions (42_compression.md sections 1 and 2) -/

/-- R80: addition is unsigned, modulo 2^32, with the rule's three examples. That a sum of several terms may be formed in any
order and reduced once at the end is the spec's own derivation. -/
def Obligations.AdditionIsModulo32Bits : Prop :=
  (∀ x y : Word, (add32 x y).toNat = (x.toNat + y.toNat) % 2 ^ 32) ∧
  (∀ x y z : Word, (add32 (add32 x y) z).toNat = (x.toNat + y.toNat + z.toNat) % 2 ^ 32 ∧
    add32 (add32 x y) z = add32 x (add32 y z) ∧ add32 x y = add32 y x) ∧
  add32 0xffffffff 0x00000001 = 0x00000000 ∧ add32 0x80000000 0x80000000 = 0x00000000 ∧
  add32 0xfffffffe 0x00000003 = 0x00000001

/-- R81 and R82, bit by bit and as arithmetic, with their examples, for the amounts for which the spec defines them: 1 to 31
for the rotation, 0 to 31 for the shift (91_not_in_source.md N18). -/
def Obligations.RotateAndShiftMoveEveryBit : Prop :=
  (∀ (x : Word) (n i : Nat), 1 ≤ n → n ≤ 31 → i < 32 →
    (rotr x n).getLsbD i = x.getLsbD ((i + n) % 32)) ∧
  (∀ (x : Word) (n : Nat), 1 ≤ n → n ≤ 31 →
    (rotr x n).toNat = x.toNat / 2 ^ n + x.toNat % 2 ^ n * 2 ^ (32 - n)) ∧
  (∀ (x : Word) (n : Nat), n ≤ 31 → (shr x n).toNat = x.toNat / 2 ^ n ∧
    ∀ i, i < 32 → (shr x n).getLsbD i = (decide (i + n < 32) && x.getLsbD (i + n))) ∧
  rotr 0x00000001 1 = 0x80000000 ∧ rotr 0x12345678 4 = 0x81234567 ∧ rotr 0x12345678 8 = 0x78123456 ∧
  shr 0x80000000 3 = 0x10000000 ∧ shr 0x12345678 10 = 0x00048d15

/-- The model's choice, and nothing about the hardware (log 10, DESIGN CHOICE; R81 and 91_not_in_source.md N18 give these
amounts no value): a rotation by 0 or by 32 and more gives x, a shift by 32 and more gives 0. -/
def Obligations.RotateAndShiftBeyondTheirRange : Prop :=
  ∀ (x : Word) (n : Nat), (n = 0 ∨ 32 ≤ n → rotr x n = x) ∧ (32 ≤ n → shr x n = 0)

/-- R84 to R87: each function is the XOR of the rotations and shifts its rule names, as an equation and said of every bit of
the result, with the rule's examples. -/
def Obligations.SigmaFunctionsBitByBit : Prop :=
  (∀ x : Word, ssig0 x = rotr x 7 ^^^ rotr x 18 ^^^ shr x 3 ∧ ssig1 x = rotr x 17 ^^^ rotr x 19 ^^^ shr x 10 ∧
    bsig0 x = rotr x 2 ^^^ rotr x 13 ^^^ rotr x 22 ∧ bsig1 x = rotr x 6 ^^^ rotr x 11 ^^^ rotr x 25) ∧
  (∀ (x : Word) (i : Nat), i < 32 →
    (ssig0 x).getLsbD i =
      ((x.getLsbD ((i + 7) % 32) ^^ x.getLsbD ((i + 18) % 32)) ^^ (decide (i + 3 < 32) && x.getLsbD (i + 3))) ∧
    (ssig1 x).getLsbD i =
      ((x.getLsbD ((i + 17) % 32) ^^ x.getLsbD ((i + 19) % 32)) ^^ (decide (i + 10 < 32) && x.getLsbD (i + 10))) ∧
    (bsig0 x).getLsbD i =
      ((x.getLsbD ((i + 2) % 32) ^^ x.getLsbD ((i + 13) % 32)) ^^ x.getLsbD ((i + 22) % 32)) ∧
    (bsig1 x).getLsbD i =
      ((x.getLsbD ((i + 6) % 32) ^^ x.getLsbD ((i + 11) % 32)) ^^ x.getLsbD ((i + 25) % 32))) ∧
  (ssig0 0 = 0 ∧ ssig0 1 = 0x02004000 ∧ ssig0 0x80000000 = 0x11002000 ∧ ssig0 0xffffffff = 0x1fffffff ∧
    ssig0 0x12345678 = 0xe7fce6ee) ∧
  (ssig1 0 = 0 ∧ ssig1 1 = 0x0000a000 ∧ ssig1 0x80000000 = 0x00205000 ∧ ssig1 0xffffffff = 0x003fffff ∧
    ssig1 0x12345678 = 0xa1f78649) ∧
  (bsig0 0 = 0 ∧ bsig0 1 = 0x40080400 ∧ bsig0 0x80000000 = 0x20040200 ∧ bsig0 0xffffffff = 0xffffffff ∧
    bsig0 0x12345678 = 0x66146474 ∧ bsig0 0x6a09e667 = 0xce20b47e) ∧
  (bsig1 0 = 0 ∧ bsig1 1 = 0x04200080 ∧ bsig1 0x80000000 = 0x02100040 ∧ bsig1 0xffffffff = 0xffffffff ∧
    bsig1 0x12345678 = 0x3561abda)

/-- R88 and R89 bit by bit ("[derived]" there), the symmetry of Maj, and the rules' examples. -/
def Obligations.ChooseAndMajorityBitByBit : Prop :=
  (∀ (x y z : Word) (i : Nat), i < 32 →
    (ch x y z).getLsbD i = (if x.getLsbD i then y.getLsbD i else z.getLsbD i) ∧
    (maj x y z).getLsbD i =
      decide (2 ≤ (x.getLsbD i).toNat + (y.getLsbD i).toNat + (z.getLsbD i).toNat)) ∧
  (∀ x y z : Word, maj x y z = maj y x z ∧ maj x y z = maj x z y) ∧
  (∀ y z : Word, ch 0xffffffff y z = y ∧ ch 0 y z = z ∧ maj y y z = y) ∧
  ch 0xff00ff00 0x12345678 0x9abcdef0 = 0x12bc56f0 ∧ ch 0x510e527f 0x9b05688c 0x1f83d9ab = 0x1f85c98c ∧
  maj 0xff00ff00 0x12345678 0x9abcdef0 = 0x9a34de70 ∧ maj 0x6a09e667 0xbb67ae85 0x3c6ef372 = 0x3a6fe667

/-! ### COMPRESS (42_compression.md sections 3 and 4) -/

/-- R90 and R91: W[0..15] are the big-endian words of the block, and each later word is the sum of the four earlier words
the rule names; there are 64 words. When the block is the full buffer, W[i] is MemRead(4i, 4). -/
def Obligations.ScheduleFollowsItsRecurrence : Prop :=
  (∀ (b : List Byte), b.length = 64 →
    (schedule b).length = 64 ∧
    (∀ i, i < 16 → ((schedule b).getD i 0).toNat =
      (b.getD (4 * i) 0).toNat * 2 ^ 24 + (b.getD (4 * i + 1) 0).toNat * 2 ^ 16 +
      (b.getD (4 * i + 2) 0).toNat * 2 ^ 8 + (b.getD (4 * i + 3) 0).toNat) ∧
    (∀ i, 16 ≤ i → i ≤ 63 → (schedule b).getD i 0 =
      add32 (add32 (add32 (ssig1 ((schedule b).getD (i - 2) 0)) ((schedule b).getD (i - 7) 0))
        (ssig0 ((schedule b).getD (i - 15) 0))) ((schedule b).getD (i - 16) 0))) ∧
  (∀ (st : Storage) (i : Nat), i < 16 → (schedule st.buf.toList).getD i 0 = st.memRead (4 * i))

/-- R93 and R94: round t, for t from 0 to 63, computes T1 and T2 from K[t] and W[t] and replaces the eight registers
simultaneously, and COMPRESS adds the registers after round 63 into the state it started from, component-wise. That the same
round may be written as eight assignments one after the other, in the source's order, is R93's own derivation. Which register
stands beside which word of H (R92, the pairing in R94) is general knowledge there, GK10 (log 13, DEDUCED). -/
def Obligations.RoundsAndFeedForward : Prop :=
  (∀ (r : WorkRegs) (k w : Word),
    let t1 := roundT1 k w r
    let t2 := roundT2 r
    let r1 := { r with h := r.g }
    let r2 := { r1 with g := r1.f }
    let r3 := { r2 with f := r2.e }
    let r4 := { r3 with e := add32 r3.d t1 }
    let r5 := { r4 with d := r4.c }
    let r6 := { r5 with c := r5.b }
    let r7 := { r6 with b := r6.a }
    roundStep r k w = { r7 with a := add32 t1 t2 }) ∧
  ∀ (hin : Vector Word 8) (b : List Byte), b.length = 64 →
    let r := fun t => runRounds t (schedule b) (loadRegs hin)
    r 0 = loadRegs hin ∧
    (∀ t : Fin 64,
      let t1 := add32 (add32 (add32 (add32 (r t).h (bsig1 (r t).e)) (ch (r t).e (r t).f (r t).g)) Config.K[t])
        ((schedule b).getD t 0)
      let t2 := add32 (bsig0 (r t).a) (maj (r t).a (r t).b (r t).c)
      r (t + 1) = ⟨add32 t1 t2, (r t).a, (r t).b, (r t).c, add32 (r t).d t1, (r t).e, (r t).f, (r t).g⟩) ∧
    (compress hin b)[0] = add32 hin[0] (r 64).a ∧ (compress hin b)[1] = add32 hin[1] (r 64).b ∧
    (compress hin b)[2] = add32 hin[2] (r 64).c ∧ (compress hin b)[3] = add32 hin[3] (r 64).d ∧
    (compress hin b)[4] = add32 hin[4] (r 64).e ∧ (compress hin b)[5] = add32 hin[5] (r 64).f ∧
    (compress hin b)[6] = add32 hin[6] (r 64).g ∧ (compress hin b)[7] = add32 hin[7] (r 64).h

/-- R95 and R99, worked examples ("[derived]" there): the padded message "abc" from IV, and the all-ones state and block.
The register order of R92 and the ROM values of R14 and R15 are general knowledge there; a wrong one changes these values. -/
def Obligations.CompressWorkedExamples : Prop :=
  compress Config.IV ([0x61, 0x62, 0x63, 0x80] ++ List.replicate 59 0x00 ++ [0x18]) =
    #v[0xba7816bf, 0x8f01cfea, 0x414140de, 0x5dae2223, 0xb00361a3, 0x96177a9c, 0xb410ff61, 0xf20015ad] ∧
  compress (Vector.replicate 8 0xffffffff) (List.replicate 64 0xff) =
    #v[0x0598127a, 0xaf11706e, 0x77401fff, 0xd730c549, 0x0b84c867, 0xa98c6ca3, 0xd7f3c0f9, 0x06a78b79]

/-! ### Decoding and encoding (30_encoding.md part A; its encodings are the spec's decisions D2 to D9) -/

/-- R45, R47, R50: a packet decodes to a command exactly when it is that command's encoding and the payload is within the
bound, for every bound. So decoding an encoded well-formed command gives it back, and each packet spells at most one. -/
def Obligations.DecodeAndEncodeAgree : Prop :=
  ∀ (bound : Option Nat) (p : Packet) (i : Instr),
    decodeWith bound p = .command i ↔ encode i = p ∧ i.wfWith bound = true

/-- R50: a packet is invalid in exactly the five cases. The header's fields are read here as P[0] / 8 and P[0] mod 8. -/
def Obligations.PacketIsInvalidInExactlyFiveCases : Prop :=
  ∀ (bound : Option Nat) (p : Packet),
    (∃ why, decodeWith bound p = .invalid why) ↔
      (p = [] ∨ ∃ header data, p = header :: data ∧
        (header.toNat / 8 ≠ 0 ∨ header.toNat % 8 = 0 ∨ header.toNat % 8 = 7 ∨
          ((header = 0x01 ∨ header = 0x03 ∨ header = 0x04) ∧ data ≠ []) ∨
          ∃ b, bound = some b ∧ b < data.length))

/-- R130: the decoder checks in the order of R50 and names the first case that applies; a packet that passes every check is
a command. -/
def Obligations.DecoderChecksInOrder : Prop :=
  (∀ bound, decodeWith bound [] = .invalid .emptyPacket) ∧
  ∀ (bound : Option Nat) (header : Byte) (data : List Byte),
    if header.toNat / 8 ≠ 0 then decodeWith bound (header :: data) = .invalid .reservedBits
    else if header.toNat % 8 = 0 ∨ header.toNat % 8 = 7 then
      decodeWith bound (header :: data) = .invalid .reservedOperation
    else if (header = 0x01 ∨ header = 0x03 ∨ header = 0x04) ∧ data ≠ [] then
      decodeWith bound (header :: data) = .invalid .unexpectedPayload
    else if payloadWithin bound data.length = false then
      decodeWith bound (header :: data) = .invalid .payloadTooLong
    else ∃ i : Instr, decodeWith bound (header :: data) = .command i ∧ i.payload = data

/-- R47 and R58: the header byte of each command, and packets of the spec's tables decoded. -/
def Obligations.TablePacketsDecode : Prop :=
  (∀ data : List Byte, encode .init = [0x01] ∧ encode (.update data) = 0x02 :: data ∧ encode .digest = [0x03] ∧
    encode .hexdigest = [0x04] ∧ encode (.digestOf data) = 0x05 :: data ∧
    encode (.hexDigestOf data) = 0x06 :: data) ∧
  decode [0x01] = .command .init ∧ decode [0x02, 0x61, 0x62, 0x63] = .command (.update [0x61, 0x62, 0x63]) ∧
  decode [0x02, 0x01] = .command (.update [0x01]) ∧ decode [0x03] = .command .digest ∧
  decode [0x04] = .command .hexdigest ∧ decode [0x05] = .command (.digestOf []) ∧
  decode [0x06, 0x61] = .command (.hexDigestOf [0x61]) ∧
  decode [0x82] = .invalid .reservedBits ∧ decode [0x07, 0x61] = .invalid .reservedOperation ∧
  decode [0x03, 0x00] = .invalid .unexpectedPayload

/-- R55: the packet of a written line is its header byte followed by the payload's bytes, so a line decodes to the command
it names (under the spec's default, an unbounded payload). What byte a character outside ASCII stands for is the model's
choice (log 17, DESIGN CHOICE). -/
def Obligations.LineSpellsItsCommand : Prop :=
  ∀ (k : Option Nat) (p : PayloadText),
    decode (linePacket ⟨k, .init⟩) = .command .init ∧
    decode (linePacket ⟨k, .update p⟩) = .command (.update (payloadTextBytes p)) ∧
    decode (linePacket ⟨k, .digest⟩) = .command .digest ∧
    decode (linePacket ⟨k, .hexdigest⟩) = .command .hexdigest ∧
    decode (linePacket ⟨k, .digestOf p⟩) = .command (.digestOf (payloadTextBytes p)) ∧
    decode (linePacket ⟨k, .hexDigestOf p⟩) = .command (.hexDigestOf (payloadTextBytes p)) ∧
    payloadTextBytes (.join (.quoted ['a', 'b']) (.join (.hexPairs [0x63]) (.join .empty (.rep 0x00 2)))) =
      [0x61, 0x62, 0x63, 0x00, 0x00]

/-! ### The step (00_scope.md R4; 60_exceptions.md; 70_reset_and_hazards.md) -/

/-- A step runs the decoded command: with a packet at the head of the port that decodes to a command, the step is exec of
that command on the state with the packet taken off the port. With an invalid packet there, the step takes it off the port,
appends the response `01` with no result byte, and changes nothing else (R127). The port and the list of responses are the
model's own (logs 1 and 2, DESIGN CHOICE). -/
def Obligations.StepRunsTheDecodedCommand : Prop :=
  ∀ (s : State) (p : Packet) (rest : List HostEvent), s.port = .packet p :: rest →
    (∀ i : Instr, decode p = .command i → step s = exec i { s with port := rest }) ∧
    (∀ why : InvalidInput, decode p = .invalid why → ∃ r : Response, responseBytes r = [0x01] ∧
      step s = .next { s with port := rest, responses := s.responses ++ [r] })

/-- R127: a packet that spells no command is answered `01` and nothing else, and writes no architectural state; on every
platform bound. -/
def Obligations.InvalidPacketIsAnsweredAndWritesNothing : Prop :=
  ∀ (bound : Option Nat) (p : Packet) (s : State) (why : InvalidInput),
    decodeWith bound p = .invalid why →
    Answers (receiveWith bound p s) fun t =>
      t.live = s.live ∧ t.port = s.port ∧ observation t = observation s ++ [[0x01]]

/-- R145 and R146 (that hardware reset equals creation is the spec's decision D11; that the host keeps the responses it has
is the model's choice, log 6): reset gives the initial state from any state, whatever packet was under way, with no
response; INIT gives the same live state. -/
def Obligations.ResetEventGivesTheInitialState : Prop :=
  ∀ (s : State) (lost : Option Packet) (rest : List HostEvent), s.port = .reset lost :: rest →
    step s = .next ⟨⟨Config.IV, [], 0⟩, rest, s.responses⟩ ∧
    Answers (exec .init s) fun t => t.live = ⟨Config.IV, [], 0⟩

/-- R28: the state after reset. The empty port is the model's choice (log 2). -/
def Obligations.ResetState : Prop :=
  State.reset.live.h =
    #v[0x6a09e667, 0xbb67ae85, 0x3c6ef372, 0xa54ff53a, 0x510e527f, 0x9b05688c, 0x1f83d9ab, 0x5be0cd19] ∧
  State.reset.live.buflen = 0#6 ∧ State.reset.live.mb = [] ∧ State.reset.live.bitlen = 0 ∧
  State.reset.responses = [] ∧ State.reset.port = []

/-- The invariants hold at reset (10_state.md R25, "true after reset and after every command"). -/
def Obligations.ResetIsWellFormed : Prop := State.reset.wf

/-- R25 (3) and R12 (R25 is the spec's own derivation): every step keeps BUFLEN below 64, BITLEN[2:0] = 0 and
BUFLEN = BITLEN[8:3], after the counter has wrapped too. -/
def Obligations.EveryStepKeepsTheStateWellFormed : Prop :=
  ∀ s t : State, s.wf → step s = .next t → t.wf

/-- R25 (R25 is the spec's own derivation), as what one step does: in a state that is the one a logical message m leads to,
whatever its events and responses, every step gives the state of the message after that event: the same message and the
payload for an UPDATE, the empty one for INIT and reset, m for every other packet, the invalid ones included. That a reset
event leads to the initial state is R145 with the spec's decision D11. -/
def Obligations.EveryStepKeepsTheLogicalMessage : Prop :=
  ∀ (s t : State) (m : List Byte), s.live.isStateOf m → step s = .next t →
    t.live.isStateOf (match s.port with
      | [] => m
      | e :: _ => messageAfter e m)

/-- R25 at reset, "true after reset and after every command": the state after reset is the one the empty logical message
leads to. -/
def Obligations.ResetHoldsTheEmptyMessage : Prop := State.reset.live.isStateOf []

/-- R125, R149 ("[derived]" there), R49: no step stops. A step takes exactly one event off the port and gives exactly one
response if that was a packet, none if it was a reset; with nothing on the port it changes nothing (log 3). -/
def Obligations.EveryStepAnswers : Prop :=
  ∀ s : State, Answers (step s) fun t => t.port = s.port.tail ∧
    match s.port with
    | [] => t = s
    | .packet _ :: _ => ∃ r, t.responses = s.responses ++ [r]
    | .reset _ :: _ => t.responses = s.responses

/-- R132 ("[derived]" there): a sequence of host events gives the same live state and the same responses to its valid packets
as the sequence with the invalid packets removed. -/
def Obligations.InvalidPacketsLeaveNoTrace : Prop :=
  ∀ (events : List HostEvent) (s : State), ∃ (t u : State) (q : List Response),
    serveAll events s = .next t ∧ serveAll (events.filter eventIsValid) s = .next u ∧
    t.live = u.live ∧ t.responses = s.responses ++ q ∧
    u.responses = s.responses ++ q.filter (fun r => r.status = .ok)

/-- R45 and R151 (the framing is the spec's decision D2, R151 its own derivation): from a stream of whole packets, each with its
last byte marked, and then the bytes of a packet not ended, the engine gets exactly those packets; the packet still arriving
has had no effect. -/
def Obligations.OnlyWholePacketsReachTheEngine : Prop :=
  ∀ (packets : List Packet) (arriving : List Byte), (∀ p ∈ packets, p ≠ []) →
    frame [] (packets.flatMap beatsOf ++ openBeats arriving) = (packets, arriving) ∧
    ∀ s : State, serveBeats (packets.flatMap beatsOf ++ openBeats arriving) s =
      serveAll (packets.map .packet) s

/-- R49 (the format is the spec's decision D7, D8): every command completes, from every state, with one response of status
0x00 and of 0, 32 or 64 result bytes. -/
def Obligations.EveryCommandCompletesWithItsResponse : Prop :=
  ∀ (i : Instr) (s : State), Answers (exec i s) fun t =>
    t.port = s.port ∧ ∃ q, observation t = observation s ++ [0x00 :: q] ∧
      q.length = match i with
        | .init => 0
        | .update _ => 0
        | .digest => 32
        | .hexdigest => 64
        | .digestOf _ => 32
        | .hexDigestOf _ => 64

/-- What the commands leave unchanged: the four digest commands all of (H, MB, BITLEN), an UPDATE that completes no block H,
and every command the port and the responses already given. -/
def Obligations.CommandFrame : Prop :=
  (∀ (i : Instr) (s t : State), exec i s = .next t →
    t.port = s.port ∧ ∃ r, t.responses = s.responses ++ [r]) ∧
  (∀ (i : Instr) (s t : State), readsOnly i = true → exec i s = .next t →
    t.live.h = s.live.h ∧ t.live.mb = s.live.mb ∧ t.live.bitlen = s.live.bitlen) ∧
  (∀ (data : List Byte) (s t : State), s.live.mb.length + data.length < 64 →
    exec (.update data) s = .next t → t.live.h = s.live.h)

/-! ### INIT and UPDATE (41_accumulator.md) -/

/-- R65 (INIT as a command is the spec's decision D10): from any state, INIT gives the initial state and the response `00`. -/
def Obligations.InitGivesTheInitialState : Prop :=
  ∀ s : State, exec .init s = .next
    { live := ⟨#v[0x6a09e667, 0xbb67ae85, 0x3c6ef372, 0xa54ff53a, 0x510e527f, 0x9b05688c, 0x1f83d9ab, 0x5be0cd19],
        [], 0⟩,
      port := s.port, responses := s.responses ++ [⟨.ok, []⟩] }

/-- R66, the closed form ("[derived: from the pseudocode]" there): with S = MB ++ data and q = floor((L + n) / 64), UPDATE
folds COMPRESS over S[0..64), ..., S[64(q-1)..64q) in order, leaves S[64q..L+n) pending, (L + n) mod 64 bytes, and adds 8n to
BITLEN modulo 2^64. -/
def Obligations.UpdateFoldsEveryWholeBlock : Prop :=
  ∀ (data : List Byte) (s : State),
    let S := s.live.mb ++ data
    let q := (s.live.mb.length + data.length) / 64
    Answers (exec (.update data) s) fun t =>
      t.live.h = ((List.range q).map fun k => (S.drop (64 * k)).take 64).foldl compress s.live.h ∧
      t.live.mb = S.drop (64 * q) ∧ t.live.mb.length = (s.live.mb.length + data.length) % 64 ∧
      t.live.bitlen.toNat = (s.live.bitlen.toNat + 8 * data.length) % 2 ^ 64 ∧
      t.port = s.port ∧ t.responses = s.responses ++ [⟨.ok, []⟩]

/-- R69: a zero-length UPDATE changes nothing; its response is still `00`. -/
def Obligations.ZeroLengthUpdateIsANoOp : Prop :=
  ∀ s : State, s.live.mb.length < 64 →
    exec (.update []) s = .next { s with responses := s.responses ++ [⟨.ok, []⟩] }

/-- R68: from every state, UPDATE (x ++ y) and UPDATE x then UPDATE y give the same (H, MB, BITLEN); and for every split of a
message into k pieces, k UPDATEs give the same digest as one. -/
def Obligations.ChunkingInvariance : Prop :=
  (∀ (s : State) (x y : List Byte), ∃ t u : State,
    execAll [.update x, .update y] s = .next t ∧ exec (.update (x ++ y)) s = .next u ∧ t.live = u.live) ∧
  (∀ (s : State) (pieces : List (List Byte)), pieces ≠ [] → ∃ (t u : State) (d : List Byte),
    execAll (pieces.map .update) s = .next t ∧ exec (.update pieces.flatten) s = .next u ∧
    exec .digest t = .next (t.respond ⟨.ok, d⟩) ∧ exec .digest u = .next (u.respond ⟨.ok, d⟩))

/-- R67 ("[derived]" there): the byte-serial UPDATE on BUF and BUFLEN gives the state that R66 gives, for every content of
the registers and every payload. -/
def Obligations.ByteSerialUpdateRefinesUpdate : Prop :=
  ∀ (st : Storage) (data : List Byte), (st.update data).toEngine = st.toEngine.update data

/-- R65, R12, R148: INIT on the registers gives the initial state whatever they held, the state at power-on included, though
no byte of BUF is cleared; and the pending bytes the registers hold are always fewer than 64. -/
def Obligations.InitOnTheRegisters : Prop :=
  (∀ st : Storage, st.init.toEngine = ⟨Config.IV, [], 0⟩ ∧ st.init.buf = st.buf) ∧
  (∀ st : Storage, st.toEngine.mb.length = st.buflen.toNat ∧ st.toEngine.mb.length < 64) ∧
  Answers (exec .init State.powerOn) fun t => t.live = State.reset.live

/-- R70 ("[derived]" there): after any sequence of commands from the initial state, with m the logical message (the payloads
since the last INIT) and N its length, H is the fold of COMPRESS from IV over the floor(N / 64) blocks of m, MB the rest of m
and BITLEN = 8N mod 2^64. -/
def Obligations.LiveStateIsTheLogicalMessage : Prop :=
  ∀ (s : State) (cs : List Instr), s.isInitial → Answers (execAll cs s) fun t =>
    let m := logicalMessage cs
    t.live.h = (blocksOf m).foldl compress Config.IV ∧ t.live.mb = m.drop (64 * (m.length / 64)) ∧
    t.live.bitlen.toNat = 8 * m.length % 2 ^ 64

/-- R44: no byte is reordered, dropped or duplicated: the blocks consumed, each of 64 bytes, followed by MB are the logical
message. -/
def Obligations.BufferIsAQueue : Prop :=
  ∀ (s : State) (cs : List Instr), s.isInitial → Answers (execAll cs s) fun t =>
    ∃ consumed : List (List Byte), (∀ b ∈ consumed, b.length = 64) ∧
      t.live.h = consumed.foldl compress Config.IV ∧
      consumed.flatten ++ t.live.mb = logicalMessage cs ∧ t.live.mb.length < 64

/-- R74, last row ("[derived]" there; the wrap is R72, decision D27): one byte into 63 pending bytes with BITLEN =
0xfffffffffffffff8 consumes a block and wraps the counter to 0. -/
def Obligations.CounterWraps : Prop :=
  ∀ (x : Vector Word 8) (s : State), s.live = ⟨x, List.replicate 63 0x61, 0xfffffffffffffff8⟩ →
    Answers (exec (.update [0x61]) s) fun t => t.live = ⟨compress x (List.replicate 64 0x61), [], 0⟩

/-! ### Padding, DIGEST and HEXDIGEST (43_finalizer.md; 20_memory.md R34; 30_encoding.md part B) -/

/-- R100: one 0x80 byte, the least number of zero bytes that brings the length to 56 modulo 64, and the counter as eight
big-endian bytes, with the rule's example. -/
def Obligations.PadAppendsMarkerZerosAndLength : Prop :=
  (∀ (l : Nat) (n : LongWord), l ≤ 63 → ∃ z : Nat,
    (z : Int) = (55 - (l : Int)) % 64 ∧ (l + 1 + z) % 64 = 56 ∧ (∀ z' < z, (l + 1 + z') % 64 ≠ 56) ∧
    (pad l n).length = 1 + z + 8 ∧ (pad l n).getD 0 0xff = 0x80 ∧
    (∀ i, 1 ≤ i → i ≤ z → (pad l n).getD i 0xff = 0x00) ∧
    (∀ j : Fin 8, (pad l n).getD (1 + z + j) 0xff = n.extractLsb' (56 - 8 * j) 8)) ∧
  pad 3 24 = [0x80] ++ List.replicate 52 0x00 ++ [0, 0, 0, 0, 0, 0, 0, 0x18]

/-- R52 and R101 ("[derived]" there): the layout of the padded tail, one block when L <= 55 and two when L >= 56. -/
def Obligations.PaddedTailLayout : Prop :=
  ∀ (m : List Byte) (n : LongWord), m.length ≤ 63 →
    (paddedTail m n).length = (if m.length ≤ 55 then 64 else 128) ∧
    paddedTail m n = m ++ [0x80] ++
      List.replicate (if m.length ≤ 55 then 55 - m.length else 119 - m.length) 0x00 ++ be64 n

/-- R34: the digest's bytes are the words in order, each most significant byte first. -/
def Obligations.SerializeIsBigEndian : Prop :=
  ∀ f : Vector Word 8, (serialize f).length = 32 ∧
    ∀ (i : Fin 8) (j : Fin 4), (serialize f)[4 * i.val + j.val]? = some (f[i].extractLsb' (24 - 8 * j) 8)

/-- R102 and R103: DIGEST, from every state with at most 63 pending bytes, responds with the 32 bytes of the words that one
compression (L <= 55) or two (L >= 56) of the laid-out tail give from the current H, and writes none of the live state. -/
def Obligations.DigestCompressesThePaddedTail : Prop :=
  ∀ s : State, s.live.mb.length ≤ 63 →
    let m := s.live.mb
    let n := be64 s.live.bitlen
    let f := if m.length ≤ 55
      then compress s.live.h (m ++ [0x80] ++ List.replicate (55 - m.length) 0x00 ++ n)
      else compress (compress s.live.h (m ++ [0x80] ++ List.replicate (63 - m.length) 0x00))
        (List.replicate 56 0x00 ++ n)
    exec .digest s = .next { s with responses := s.responses ++ [⟨.ok, f.toList.flatMap be32⟩] }

/-- R107: two characters per byte, most significant nibble first, each the digit of "0123456789abcdef" at the nibble's
value, with the rule's example. That a character is the byte of its ASCII code is the spec's decision D15 and general
knowledge GK4 (log 13, DEDUCED). -/
def Obligations.HexEncodingOfEveryByte : Prop :=
  (∀ s : List Byte, (hexEnc s).length = 2 * s.length ∧
    ∀ j, j < s.length →
      (hexEnc s)[2 * j]? = hexAlphabet[(s.getD j 0).toNat / 16]? ∧
      (hexEnc s)[2 * j + 1]? = hexAlphabet[(s.getD j 0).toNat % 16]?) ∧
  hexAlphabet.map (fun b => b.toNat) = "0123456789abcdef".toList.map Char.toNat ∧
  hexEnc [0xe3, 0xb0, 0x0f] = [0x65, 0x33, 0x62, 0x30, 0x30, 0x66]

/-- R104: HEXDIGEST responds with the 64 hexadecimal characters of the bytes DIGEST would respond with, lower-case digits
only, and writes none of the live state. -/
def Obligations.HexdigestSpellsTheDigest : Prop :=
  ∀ s : State, ∃ d x : List Byte,
    exec .digest s = .next { s with responses := s.responses ++ [⟨.ok, d⟩] } ∧
    exec .hexdigest s = .next { s with responses := s.responses ++ [⟨.ok, x⟩] } ∧
    d.length = 32 ∧ x.length = 64 ∧ (∀ c ∈ x, c ∈ hexAlphabet) ∧
    ∀ j, j < 32 → x[2 * j]? = hexAlphabet[(d.getD j 0).toNat / 16]? ∧
      x[2 * j + 1]? = hexAlphabet[(d.getD j 0).toNat % 16]?

/-- R105: after DIGEST or HEXDIGEST, (H, MB, BITLEN) is as before, and whatever commands follow end in the same live state
with the same responses as if it had never been called. -/
def Obligations.DigestsAreNonDestructive : Prop :=
  ∀ (i : Instr) (s : State) (cs : List Instr), i = .digest ∨ i = .hexdigest →
    Answers (exec i s) (fun t => t.live = s.live) ∧
    ∃ (t u : State) (r : Response) (q : List Response),
      execAll (i :: cs) s = .next t ∧ execAll cs s = .next u ∧ t.live = u.live ∧
      t.responses = s.responses ++ r :: q ∧ u.responses = s.responses ++ q

/-- R106 ("[derived]" there): two DIGESTs with no UPDATE or INIT between them return the same bytes, and a HEXDIGEST the same
digest as hex. -/
def Obligations.RepeatedDigestsAgree : Prop :=
  ∀ (s : State) (cs : List Instr), (∀ i ∈ cs, readsOnly i = true) →
    ∃ (d : List Byte) (q : List Response), q.length = cs.length ∧
      Answers (execAll (.digest :: cs ++ [.digest, .hexdigest]) s) fun t =>
        t.live = s.live ∧ t.responses = s.responses ++ [⟨.ok, d⟩] ++ q ++ [⟨.ok, d⟩, ⟨.ok, hexEnc d⟩]

/-- R109: from the initial state, UPDATE m1; DIGEST; UPDATE m2; DIGEST return the results of DIGEST_OF m1 and of
DIGEST_OF (m1 ++ m2). -/
def Obligations.MidStreamDigests : Prop :=
  ∀ (s : State) (m1 m2 : List Byte), s.isInitial → ∃ d1 d2 : List Byte,
    Answers (execAll [.update m1, .digest, .update m2, .digest] s) (fun t =>
      t.responses = s.responses ++ [⟨.ok, []⟩, ⟨.ok, d1⟩, ⟨.ok, []⟩, ⟨.ok, d2⟩]) ∧
    ∀ s' : State, exec (.digestOf m1) s' = .next (s'.respond ⟨.ok, d1⟩) ∧
      exec (.digestOf (m1 ++ m2)) s' = .next (s'.respond ⟨.ok, d2⟩)

/-- R110 ("[derived]" there): after any sequence of commands from the initial state, DIGEST returns the serialisation of the
fold of COMPRESS from IV over the blocks of m ++ Pad(N mod 64, 8N mod 2^64), m the logical message and N its length. -/
def Obligations.DigestHashesTheLogicalMessage : Prop :=
  ∀ (s : State) (cs : List Instr), s.isInitial →
    let m := logicalMessage cs
    Answers (execAll (cs ++ [.digest]) s) fun t => t.responses.getLast? = some ⟨.ok,
      serialize ((blocksOf (m ++ pad (m.length % 64) (BitVec.ofNat 64 (8 * m.length)))).foldl compress Config.IV)⟩

/-! ### DIGEST_OF and HEX_DIGEST_OF (44_oneshot.md) -/

/-- R115, the closed form ("[derived]" there) and R116: from every state, DIGEST_OF responds with FINALIZE of the payload's
folded blocks, its rest and its bit count, HEX_DIGEST_OF with that in hex, and neither writes the live state. -/
def Obligations.OneShotClosedForm : Prop :=
  ∀ (data : List Byte) (s : State),
    let d := finalize ((blocksOf data).foldl compress Config.IV) (data.drop (64 * (data.length / 64)))
      (BitVec.ofNat 64 (8 * data.length))
    exec (.digestOf data) s = .next { s with responses := s.responses ++ [⟨.ok, d⟩] } ∧
    exec (.hexDigestOf data) s = .next { s with responses := s.responses ++ [⟨.ok, hexEnc d⟩] }

/-- R117: the one-shot result has length 32 and is a pure function of the payload: the same on every engine in every state
(the unspecified state at power-on included, R148). -/
def Obligations.OneShotIsAPureFunctionOfThePayload : Prop :=
  ∀ m : List Byte, ∃ d : List Byte, d.length = 32 ∧
    ∀ s : State, exec (.digestOf m) s = .next (s.respond ⟨.ok, d⟩)

/-- R118 (running on a scratch context is the spec's decision D14): a one-shot command leaves (H, MB, BITLEN) exactly as it
was, and the commands that follow cannot tell it was issued. -/
def Obligations.OneShotsDoNotDisturbTheStream : Prop :=
  ∀ (i : Instr) (data : List Byte) (s : State) (cs : List Instr), i = .digestOf data ∨ i = .hexDigestOf data →
    Answers (exec i s) (fun t => t.live = s.live) ∧
    ∃ (t u : State) (r : Response) (q : List Response),
      execAll (i :: cs) s = .next t ∧ execAll cs s = .next u ∧ t.live = u.live ∧
      t.responses = s.responses ++ r :: q ∧ u.responses = s.responses ++ q

/-- R119 ("[derived]" there): from any state, for every split of m into pieces, DIGEST and HEXDIGEST after INIT and an UPDATE
of each piece return what DIGEST_OF m and HEX_DIGEST_OF m return. All six commands complete in one run. -/
def Obligations.OneShotEqualsStreaming : Prop :=
  ∀ (s : State) (pieces : List (List Byte)), ∃ d : List Byte, d.length = 32 ∧
    Answers (execAll (.init :: pieces.map .update ++
        [.digest, .hexdigest, .digestOf pieces.flatten, .hexDigestOf pieces.flatten]) s) fun t =>
      t.responses = s.responses ++ List.replicate (1 + pieces.length) ⟨.ok, []⟩ ++
        [⟨.ok, d⟩, ⟨.ok, hexEnc d⟩, ⟨.ok, d⟩, ⟨.ok, hexEnc d⟩]

/-! ### Work, and several engines -/

/-- R155 (the counts follow from the rules there): the number of compressions of each of the six commands, none for INIT;
every block it compresses is of 64 bytes; and those compressions, in order, are what its result is made of: H after INIT and
UPDATE, the response of the four digest commands. -/
def Obligations.CompressionsOfEachCommand : Prop :=
  (∀ (i : Instr) (e : Engine), ∀ b ∈ compressedBlocks i e, b.length = 64) ∧
  (∀ s : State, (compressedBlocks .init s.live).length = 0 ∧
    Answers (exec .init s) fun t => t.live.h = (compressedBlocks .init s.live).foldl compress Config.IV) ∧
  (∀ (data : List Byte) (s : State),
    (compressedBlocks (.update data) s.live).length = (s.live.mb.length + data.length) / 64 ∧
    Answers (exec (.update data) s) fun t =>
      t.live.h = (compressedBlocks (.update data) s.live).foldl compress s.live.h) ∧
  (∀ s : State, s.live.mb.length ≤ 63 →
    (compressedBlocks .digest s.live).length = (if s.live.mb.length ≤ 55 then 1 else 2) ∧
    (compressedBlocks .hexdigest s.live).length = (if s.live.mb.length ≤ 55 then 1 else 2) ∧
    exec .digest s = .next (s.respond ⟨.ok, serialize ((compressedBlocks .digest s.live).foldl compress s.live.h)⟩) ∧
    exec .hexdigest s = .next (s.respond ⟨.ok,
      hexEnc (serialize ((compressedBlocks .hexdigest s.live).foldl compress s.live.h))⟩)) ∧
  (∀ (data : List Byte) (s : State),
    (compressedBlocks (.digestOf data) s.live).length =
      data.length / 64 + (if data.length % 64 ≤ 55 then 1 else 2) ∧
    (compressedBlocks (.hexDigestOf data) s.live).length =
      data.length / 64 + (if data.length % 64 ≤ 55 then 1 else 2) ∧
    exec (.digestOf data) s = .next (s.respond ⟨.ok,
      serialize ((compressedBlocks (.digestOf data) s.live).foldl compress Config.IV)⟩) ∧
    exec (.hexDigestOf data) s = .next (s.respond ⟨.ok,
      hexEnc (serialize ((compressedBlocks (.hexDigestOf data) s.live).foldl compress Config.IV))⟩))

/-- R137 (its number of engines is the open parameter of D22) and R42 ("[derived]" there): on reset every engine is in the
reset state; a step of one engine leaves every other as it is and does there what it would do alone,
and the steps of two engines commute. -/
def Obligations.EnginesCommute : Prop :=
  (∀ (n : Nat) (i : Fin n), (resetSystem n)[i] = State.reset) ∧
  ∀ (n : Nat) (sys : System n) (j k : Fin n), j ≠ k → ∃ a b c : System n,
    stepEngine sys j = .next a ∧ stepEngine sys k = .next b ∧
    stepEngine a k = .next c ∧ stepEngine b j = .next c ∧
    (∀ i : Fin n, i ≠ j → a[i] = sys[i]) ∧ step sys[j] = .next a[j]
end

