-- ==== Sys2Proof/Laws/State.lean ====
section
/-! SUPPORT. One lemma per field per update of the state, so that no proof unfolds a record update. -/

namespace Sys2Proof.Machine

@[simp] theorem withLive_live (s : State) (e : Engine) : (s.withLive e).live = e := rfl
@[simp] theorem withLive_port (s : State) (e : Engine) : (s.withLive e).port = s.port := rfl
@[simp] theorem withLive_responses (s : State) (e : Engine) : (s.withLive e).responses = s.responses := rfl
@[simp] theorem respond_live (s : State) (r : Response) : (s.respond r).live = s.live := rfl
@[simp] theorem respond_port (s : State) (r : Response) : (s.respond r).port = s.port := rfl
@[simp] theorem respond_responses (s : State) (r : Response) : (s.respond r).responses = s.responses ++ [r] := rfl
@[simp] theorem withPort_live (s : State) (q : List HostEvent) : (s.withPort q).live = s.live := rfl
@[simp] theorem withPort_port (s : State) (q : List HostEvent) : (s.withPort q).port = q := rfl
@[simp] theorem withPort_responses (s : State) (q : List HostEvent) : (s.withPort q).responses = s.responses := rfl

/-- A state is its three fields. -/
theorem State.eq_of_fields {s t : State} (hl : s.live = t.live) (hp : s.port = t.port)
    (hr : s.responses = t.responses) : s = t := by
  cases s; cases t; simp_all

end Sys2Proof.Machine
end

