-- ==== Sys2Proof/Laws/Blocks.lean ====
section
/-! SUPPORT. How a byte sequence falls into blocks, and what the loop of UPDATE does with it: the lemmas every statement about
UPDATE, DIGEST and the one-shot commands cites. -/

namespace Sys2Proof.Machine

@[simp] theorem length_be32 (v : Word) : (be32 v).length = 4 := rfl
@[simp] theorem length_be64 (v : LongWord) : (be64 v).length = 8 := rfl

theorem length_serialize (f : Vector Word 8) : (serialize f).length = 32 := by
  simp [serialize, List.length_flatMap]

theorem length_hexEnc (s : List Byte) : (hexEnc s).length = 2 * s.length := by
  simp [hexEnc, List.length_flatMap, Nat.mul_comm]

theorem blocksOf_short {s : List Byte} (h : s.length < 64) : blocksOf s = [] := by
  simp [blocksOf, Nat.div_eq_of_lt h]

/-- A sequence of at least 64 bytes: its leading block, then the blocks of the rest. -/
theorem blocksOf_long {s : List Byte} (h : 64 ≤ s.length) :
    blocksOf s = s.take 64 :: blocksOf (s.drop 64) := by
  have hq : s.length / 64 = (s.length - 64) / 64 + 1 := by omega
  simp only [blocksOf, List.length_drop, hq, List.range_succ_eq_map, List.map_cons, List.map_map]
  congr 1
  refine List.map_congr_left fun k _ => ?_
  simp only [Function.comp_apply, slice, List.drop_drop]
  congr 2
  omega

theorem tailOf_short {s : List Byte} (h : s.length < 64) : tailOf s = s := by
  simp [tailOf, Nat.div_eq_of_lt h]

theorem tailOf_long {s : List Byte} (h : 64 ≤ s.length) : tailOf s = tailOf (s.drop 64) := by
  have hq : s.length / 64 = (s.length - 64) / 64 + 1 := by omega
  simp only [tailOf, List.length_drop, hq, List.drop_drop]
  congr 1
  omega

theorem length_tailOf (s : List Byte) : (tailOf s).length = s.length % 64 := by
  simp only [tailOf, List.length_drop]
  omega

theorem length_blocksOf (s : List Byte) : (blocksOf s).length = s.length / 64 := by
  simp [blocksOf]

/-- Bytes added after a sequence: the blocks of the whole are the blocks already there, then those that its tail and the new
bytes make (20_memory.md R44). -/
theorem blocksOf_append (s d : List Byte) : blocksOf (s ++ d) = blocksOf s ++ blocksOf (tailOf s ++ d) := by
  induction hn : s.length using Nat.strong_induction_on generalizing s with
  | _ n ih =>
    by_cases hs : 64 ≤ s.length
    · rw [blocksOf_long (s := s ++ d) (by simp; omega), blocksOf_long hs, tailOf_long hs,
        List.take_append_of_le_length hs, List.drop_append_of_le_length hs,
        ih (s.drop 64).length (by simp only [List.length_drop]; omega) _ rfl, List.cons_append]
    · have hs' : s.length < 64 := by omega
      rw [blocksOf_short hs', tailOf_short hs', List.nil_append]

theorem tailOf_append (s d : List Byte) : tailOf (s ++ d) = tailOf (tailOf s ++ d) := by
  induction hn : s.length using Nat.strong_induction_on generalizing s with
  | _ n ih =>
    by_cases hs : 64 ≤ s.length
    · rw [tailOf_long (s := s ++ d) (by simp; omega), tailOf_long hs, List.drop_append_of_le_length hs,
        ih (s.drop 64).length (by simp only [List.length_drop]; omega) _ rfl]
    · rw [tailOf_short (s := s) (by omega)]

/-- Two counts of payload bytes, one after the other, are one count of both (41_accumulator.md R72). -/
theorem countBits_countBits (b : LongWord) (m n : Nat) : countBits (countBits b m) n = countBits b (m + n) := by
  apply BitVec.eq_of_toNat_eq
  simp only [countBits, BitVec.toNat_ofNat]
  omega

/-- The loop of UPDATE in closed form: it folds COMPRESS over the whole blocks and leaves the tail (41_accumulator.md R66). -/
theorem absorb_eq (fuel : Nat) (h : Vector Word 8) (s : List Byte) (hf : s.length ≤ fuel) :
    absorb fuel h s = ((blocksOf s).foldl compress h, tailOf s) := by
  induction fuel generalizing h s with
  | zero =>
    have hs : s.length < 64 := by omega
    simp [absorb, blocksOf_short hs, tailOf_short hs]
  | succ fuel ih =>
    by_cases hs : 64 ≤ s.length
    · rw [absorb, if_pos hs, ih _ _ (by simp only [List.length_drop]; omega), blocksOf_long hs, tailOf_long hs,
        List.foldl_cons]
    · have hs' : s.length < 64 := by omega
      rw [absorb, if_neg hs, blocksOf_short hs', tailOf_short hs', List.foldl_nil]

/-- The padding brings L bytes to 56 modulo 64, and then the length suffix to a whole number of blocks (43_finalizer.md R100). -/
theorem zeroFill_eq {l : Nat} (hl : l ≤ 63) : zeroFill l = if l ≤ 55 then 55 - l else 119 - l := by
  simp only [zeroFill]
  split <;> omega

theorem length_pad (l : Nat) (n : LongWord) : (pad l n).length = 1 + zeroFill l + 8 := by
  simp [pad]
  omega

theorem length_paddedTail (m : List Byte) (n : LongWord) (hm : m.length ≤ 63) :
    (paddedTail m n).length = if m.length ≤ 55 then 64 else 128 := by
  simp only [paddedTail, List.length_append, length_pad, zeroFill_eq hm]
  split <;> omega

/-- FINALIZE folds COMPRESS over the blocks of the padded tail (43_finalizer.md R102). -/
theorem finalWords_eq (hin : Vector Word 8) (m : List Byte) (n : LongWord) :
    finalWords hin m n = (blocksOf (paddedTail m n)).foldl compress hin := by
  simp [finalWords, blocksOf, List.foldl_map]

end Sys2Proof.Machine
end

