-- ==== Sys2Proof/Laws/Compression.lean ====
section
/-! SUPPORT. The small lemmas of the ROM K and of the message schedule, so that no proof unfolds either. -/

namespace Sys2Proof.Machine

/-- Entry i of the ROM is row i / 4, column i % 4 of its table (10_state.md R14). -/
theorem getElem_K (i : Nat) (hi : i < 64) :
    Config.K[i] = Config.kRows[i / 4][i % 4] := by
  simp [Config.K]

@[simp] theorem length_loadBlock (b : List Byte) : (loadBlock b).length = 16 := by
  simp [loadBlock]

@[simp] theorem length_extendSchedule (n : Nat) (w : List Word) :
    (extendSchedule n w).length = w.length + n := by
  induction n generalizing w with
  | zero => rfl
  | succ n ih =>
    rw [extendSchedule, ih, List.length_append, List.length_singleton]
    omega

/-- The schedule has 64 words (42_compression.md R97). -/
@[simp] theorem length_schedule (b : List Byte) : (schedule b).length = 64 := by
  simp [schedule]

end Sys2Proof.Machine
end

