-- ==== Sys2Proof/Laws/Decode.lean ====
section
/-! SUPPORT. What the decoder does for each header byte, said once (30_encoding.md R47, R50). -/

namespace Sys2Proof

/-- A header byte has a reserved bit set or is one of 0x00 to 0x07. -/
theorem header_cases : ∀ header : Byte, headerRsv header ≠ 0#5 ∨
    header = 0x00 ∨ header = 0x01 ∨ header = 0x02 ∨ header = 0x03 ∨ header = 0x04 ∨ header = 0x05 ∨
    header = 0x06 ∨ header = 0x07 := by decide

theorem decodeWith_reservedBits (bound : Option Nat) {header : Byte} (h : headerRsv header ≠ 0#5) (data : List Byte) :
    decodeWith bound (header :: data) = .invalid .reservedBits := by
  rw [decodeWith, if_pos h]

theorem decodeWith_00 (bound : Option Nat) (data : List Byte) :
    decodeWith bound (0x00 :: data) = .invalid .reservedOperation := rfl
theorem decodeWith_01 (bound : Option Nat) (data : List Byte) :
    decodeWith bound (0x01 :: data) = checkBound bound (decodeBare .init data) := rfl
theorem decodeWith_02 (bound : Option Nat) (data : List Byte) :
    decodeWith bound (0x02 :: data) = checkBound bound (.command (.update data)) := rfl
theorem decodeWith_03 (bound : Option Nat) (data : List Byte) :
    decodeWith bound (0x03 :: data) = checkBound bound (decodeBare .digest data) := rfl
theorem decodeWith_04 (bound : Option Nat) (data : List Byte) :
    decodeWith bound (0x04 :: data) = checkBound bound (decodeBare .hexdigest data) := rfl
theorem decodeWith_05 (bound : Option Nat) (data : List Byte) :
    decodeWith bound (0x05 :: data) = checkBound bound (.command (.digestOf data)) := rfl
theorem decodeWith_06 (bound : Option Nat) (data : List Byte) :
    decodeWith bound (0x06 :: data) = checkBound bound (.command (.hexDigestOf data)) := rfl
theorem decodeWith_07 (bound : Option Nat) (data : List Byte) :
    decodeWith bound (0x07 :: data) = .invalid .reservedOperation := rfl

/-- The packet of each command, its header byte written out. -/
theorem encode_init : encode .init = [0x01] := rfl
theorem encode_update (data : List Byte) : encode (.update data) = 0x02 :: data := by
  simp [encode, headerOf, opcodeOf, Instr.payload]
theorem encode_digest : encode .digest = [0x03] := rfl
theorem encode_hexdigest : encode .hexdigest = [0x04] := rfl
theorem encode_digestOf (data : List Byte) : encode (.digestOf data) = 0x05 :: data := by
  simp [encode, headerOf, opcodeOf, Instr.payload]
theorem encode_hexDigestOf (data : List Byte) : encode (.hexDigestOf data) = 0x06 :: data := by
  simp [encode, headerOf, opcodeOf, Instr.payload]

end Sys2Proof
end

