-- ==== Sys2Proof/Laws/Exec.lean ====
section
/-! SUPPORT. What executing a command, receiving a packet and taking a step can do, each said once. -/

namespace Sys2Proof.Machine

/-- The context after UPDATE, in closed form (41_accumulator.md R66). -/
theorem update_eq (e : Engine) (data : List Byte) :
    e.update data = ⟨(blocksOf (e.mb ++ data)).foldl compress e.h, tailOf (e.mb ++ data),
      countBits e.bitlen data.length⟩ := by
  simp [Engine.update, absorb_eq]

/-- The state a logical message leads to is that of a fresh engine after one UPDATE of it (41_accumulator.md R70). -/
theorem isStateOf_iff (e : Engine) (m : List Byte) : e.isStateOf m ↔ e = Engine.initial.update m := by
  obtain ⟨h, mb, b⟩ := e
  simp [Engine.isStateOf, update_eq, Engine.initial, countBits, tailOf]

/-- The live state after a command. -/
def nextLive (i : Instr) (e : Engine) : Engine :=
  match i with
  | .init => Engine.initial
  | .update data => e.update data
  | .digest | .hexdigest | .digestOf _ | .hexDigestOf _ => e

/-- The result bytes of a command. -/
def resultOf (i : Instr) (e : Engine) : List Byte :=
  match i with
  | .init => []
  | .update _ => []
  | .digest => e.digest
  | .hexdigest => hexEnc e.digest
  | .digestOf data => digestOfPayload data
  | .hexDigestOf data => hexEnc (digestOfPayload data)

/-- Everything a command can do: it stores a live state and completes with a result. -/
theorem exec_eq (i : Instr) (s : State) :
    exec i s = .next ((s.withLive (nextLive i s.live)).respond ⟨.ok, resultOf i s.live⟩) := by
  cases i <;> rfl

/-- The live state after a sequence of commands. -/
def liveAfter (cs : List Instr) (e : Engine) : Engine := cs.foldl (fun e i => nextLive i e) e

/-- The responses to a sequence of commands. -/
def answersTo : List Instr → Engine → List Response
  | [], _ => []
  | i :: cs, e => ⟨.ok, resultOf i e⟩ :: answersTo cs (nextLive i e)

/-- Everything a sequence of commands can do (20_memory.md R40). -/
theorem execAll_eq (cs : List Instr) (s : State) :
    execAll cs s = .next ⟨liveAfter cs s.live, s.port, s.responses ++ answersTo cs s.live⟩ := by
  induction cs generalizing s with
  | nil => simp [execAll, liveAfter, answersTo]
  | cons i cs ih => simp [execAll, exec_eq, ih, liveAfter, answersTo]

theorem liveAfter_append (cs ds : List Instr) (e : Engine) :
    liveAfter (cs ++ ds) e = liveAfter ds (liveAfter cs e) := by
  simp [liveAfter]

theorem answersTo_append (cs ds : List Instr) (e : Engine) :
    answersTo (cs ++ ds) e = answersTo cs e ++ answersTo ds (liveAfter cs e) := by
  induction cs generalizing e with
  | nil => simp [answersTo, liveAfter]
  | cons i cs ih => simp [answersTo, ih, liveAfter]

/-- Everything a packet can do: run the command it spells, or be answered as invalid. -/
theorem receiveWith_cases (bound : Option Nat) (p : Packet) (s : State) :
    (∃ i, decodeWith bound p = .command i ∧ receiveWith bound p s = exec i s) ∨
    (∃ why, decodeWith bound p = .invalid why ∧ receiveWith bound p s = .next (s.respond ⟨.invalidInput, []⟩)) := by
  cases h : decodeWith bound p with
  | command i => exact .inl ⟨i, rfl, by simp [receiveWith, h]⟩
  | invalid why => exact .inr ⟨why, rfl, by simp [receiveWith, h, raiseInvalidInput]⟩

/-- Everything a host event can do to the live state: leave it, make it what a command makes of it, or reset it. -/
theorem handle_cases {e : HostEvent} {s t : State} (h : handle e s = .next t) :
    t.port = s.port ∧
    ((∃ i, t.live = nextLive i s.live ∧ t.responses = s.responses ++ [⟨.ok, resultOf i s.live⟩]) ∨
     (t.live = s.live ∧ t.responses = s.responses ++ [⟨.invalidInput, []⟩]) ∨
     (t.live = Engine.initial ∧ t.responses = s.responses)) := by
  cases e with
  | packet p =>
    rcases receiveWith_cases Config.maxPayloadBytes p s with ⟨i, _, hr⟩ | ⟨why, _, hr⟩
    · rw [handle, receive, hr, exec_eq] at h
      cases h
      exact ⟨rfl, .inl ⟨i, rfl, rfl⟩⟩
    · rw [handle, receive, hr] at h
      cases h
      exact ⟨rfl, .inr (.inl ⟨rfl, rfl⟩)⟩
  | reset lost =>
    cases h
    exact ⟨rfl, .inr (.inr ⟨rfl, rfl⟩)⟩

/-- Everything a step can do: nothing, if the host has sent nothing, or the next host event. -/
theorem step_cases {s t : State} (h : step s = .next t) :
    (s.port = [] ∧ t = s) ∨ ∃ e rest, s.port = e :: rest ∧ handle e (s.withPort rest) = .next t := by
  rw [step, serve] at h
  split at h
  · next hp => cases h; exact .inl ⟨hp, rfl⟩
  · next e rest hp => exact .inr ⟨e, rest, hp, h⟩

end Sys2Proof.Machine
end

