-- ==== Sys2Proof/Laws/PerInstr.lean ====
section
/-! SUPPORT. A statement made of every command as syntax: the packet of a command is a header byte with its reserved bits
clear and its operation code below, and then its payload (30_encoding.md R45, R47). -/

namespace Sys2Proof.Laws.EncodedHeader

/-- The packet of `i` is a header and the payload, the header's fields are RSV = 0 and OP = the code of `i`, and no command
has a reserved code. -/
def Statement (i : Instr) : Prop :=
  ∃ header, encode i = header :: i.payload ∧ headerRsv header = 0#5 ∧ headerOp header = opcodeOf i ∧
    opcodeOf i ≠ 0b000#3 ∧ opcodeOf i ≠ 0b111#3

/-- The two header fields, for every operation code. -/
theorem header_fields (op : BitVec 3) : headerRsv (0#5 ++ op : Byte) = 0#5 ∧ headerOp (0#5 ++ op : Byte) = op := by
  revert op; decide

theorem init : Statement .init :=
  ⟨headerOf .init, rfl, (header_fields _).1, (header_fields _).2, by decide, by decide⟩
theorem update (data : List Byte) : Statement (.update data) :=
  ⟨headerOf (.update data), rfl, (header_fields _).1, (header_fields _).2, by simp [opcodeOf], by simp [opcodeOf]⟩
theorem digest : Statement .digest :=
  ⟨headerOf .digest, rfl, (header_fields _).1, (header_fields _).2, by decide, by decide⟩
theorem hexdigest : Statement .hexdigest :=
  ⟨headerOf .hexdigest, rfl, (header_fields _).1, (header_fields _).2, by decide, by decide⟩
theorem digestOf (data : List Byte) : Statement (.digestOf data) :=
  ⟨headerOf (.digestOf data), rfl, (header_fields _).1, (header_fields _).2, by simp [opcodeOf], by simp [opcodeOf]⟩
theorem hexDigestOf (data : List Byte) : Statement (.hexDigestOf data) :=
  ⟨headerOf (.hexDigestOf data), rfl, (header_fields _).1, (header_fields _).2, by simp [opcodeOf], by simp [opcodeOf]⟩

end Sys2Proof.Laws.EncodedHeader
end

