-- ==== Sys2Proof/Laws/Text.lean ====
section
/-! SUPPORT. What the byte of a written character is, said once. -/

namespace Sys2Proof.Machine

/-- The byte of an ASCII character is its code (00_scope.md R7). -/
theorem asciiByte_toNat {c : Char} (h : c.toNat < 128) : (asciiByte c).toNat = c.toNat := by
  rw [asciiByte, BitVec.toNat_ofNat]
  omega

end Sys2Proof.Machine
end

