-- ==== Sys2Proof/Tests/Slice0.lean ====
section
/-! SUPPORT. Tests on the spec's own vectors (95_test_vectors.md, cited by section and row), and for every statement with
hypotheses a witness that something meets them. -/

open Sys2Proof Sys2Proof.Machine

namespace Sys2Proof.Tests

/-! ### Helpers -/

/-- n bytes 0x61, the letter "a". -/
def aBytes (n : Nat) : List Byte := List.replicate n 0x61

/-- A state with these live registers and nothing else. -/
def stateWith (h : Vector Word 8) (mb : List Byte) (bitlen : LongWord) : State := ⟨⟨h, mb, bitlen⟩, [], []⟩

/-- The live state a step leads to. -/
def liveOf : Host.Outcome State Fault Refusal → Option Engine
  | .next t => some t.live
  | _ => none

/-- What the response port has carried after a step. -/
def seenOf : Host.Outcome State Fault Refusal → Option (List (List Byte))
  | .next t => some (observation t)
  | _ => none

/-- H after 64 bytes 0x61 (95_test_vectors.md 4.3). -/
def h64a : Vector Word 8 :=
  #v[0xdf5bb81c, 0xe81e0626, 0xfb45a894, 0x4fd40f31, 0xb25e6816, 0xd6d499c1, 0xab904929, 0x00635e66]

/-- The digest of the empty message (V1), in bytes. -/
def emptyDigest : List Byte :=
  [0xe3, 0xb0, 0xc4, 0x42, 0x98, 0xfc, 0x1c, 0x14, 0x9a, 0xfb, 0xf4, 0xc8, 0x99, 0x6f, 0xb9, 0x24,
    0x27, 0xae, 0x41, 0xe4, 0x64, 0x9b, 0x93, 0x4c, 0xa4, 0x95, 0x99, 0x1b, 0x78, 0x52, 0xb8, 0x55]

/-- The digest of "abc" (V2), in bytes. -/
def abcDigest : List Byte :=
  [0xba, 0x78, 0x16, 0xbf, 0x8f, 0x01, 0xcf, 0xea, 0x41, 0x41, 0x40, 0xde, 0x5d, 0xae, 0x22, 0x23,
    0xb0, 0x03, 0x61, 0xa3, 0x96, 0x17, 0x7a, 0x9c, 0xb4, 0x10, 0xff, 0x61, 0xf2, 0x00, 0x15, 0xad]

/-- The block of "abc" (95_test_vectors.md section 3). -/
def abcBlock : List Byte := [0x61, 0x62, 0x63, 0x80] ++ List.replicate 59 0x00 ++ [0x18]

/-! ### WellFormed: an ill-formed term for its one check -/

/-- A payload one byte over the bound is refused, at the bound it is accepted, and the default bound refuses none. -/
theorem test_wellFormed_bound :
    Instr.wfWith (some 2) (.update [1, 2, 3]) = false ∧ Instr.wfWith (some 2) (.update [1, 2]) = true ∧
    Instr.wfWith (some 0) (.digestOf [1]) = false ∧ Instr.wfWith (some 0) .digest = true ∧
    Instr.wf (.hexDigestOf [1, 2, 3]) = true := by decide

/-! ### Decoding: 95_test_vectors.md 4.6, each accepted packet beside its nearest refusals -/

theorem test_decode_accepted :
    decode [0b00000001] = .command .init ∧ decode [0b00000010] = .command (.update []) ∧
    decode [0b00000010, 0x00] = .command (.update [0x00]) ∧ decode [0b00000010, 0x01] = .command (.update [0x01]) ∧
    decode [0b00000011] = .command .digest ∧ decode [0b00000100] = .command .hexdigest ∧
    decode [0b00000101] = .command (.digestOf []) ∧ decode [0b00000110, 0x61] = .command (.hexDigestOf [0x61]) := by
  decide

theorem test_decode_refused :
    decode [] = .invalid .emptyPacket ∧ decode [0x00] = .invalid .reservedOperation ∧
    decode [0x07] = .invalid .reservedOperation ∧ decode [0x08] = .invalid .reservedBits ∧
    decode [0x0a, 0x61] = .invalid .reservedBits ∧ decode [0x82] = .invalid .reservedBits ∧
    decode [0xff, 0xff] = .invalid .reservedBits ∧ decode [0x01, 0x00] = .invalid .unexpectedPayload ∧
    decode [0x03, 0x61, 0x62] = .invalid .unexpectedPayload ∧ decode [0x04, 0x00] = .invalid .unexpectedPayload := by
  decide

/-- 60_exceptions.md R130: `0f 00` fails several checks and gets the one response. -/
theorem test_invalid_0f00 : seenOf (receive [0x0f, 0x00] State.reset) = some [[0x01]] := by decide

/-- 30_encoding.md R50 case 5, on a platform that bounds the payload at 2. -/
theorem test_decode_bounded :
    decodeWith (some 2) [0x02, 1, 2, 3] = .invalid .payloadTooLong ∧
    decodeWith (some 2) [0x02, 1, 2] = .command (.update [1, 2]) ∧
    decodeWith (some 0) [0x01, 1] = .invalid .unexpectedPayload := by decide

/-- The rows of opcode_table.json, as numbers of 8 bits. -/
theorem test_table_words :
    decodeTableWord 8 1 = some .init ∧ decodeTableWord 8 2 = some (.update []) ∧ decodeTableWord 8 3 = some .digest ∧
    decodeTableWord 8 4 = some .hexdigest ∧ decodeTableWord 8 5 = some (.digestOf []) ∧
    decodeTableWord 8 6 = some (.hexDigestOf []) ∧ decodeTableWord 8 7 = none ∧
    decodeTableWord 24 0x626102 = some (.update [0x61, 0x62]) := by decide

/-! ### The ROMs: 10_state.md R14 and R15, from their definition -/

/-- The primes below n, by trial division. -/
def primesBelow (n : Nat) : List Nat :=
  (List.range n).filter fun p => 2 ≤ p && (List.range p).all fun d => d < 2 || p % d != 0

/-- v is the first 32 bits of the fractional part of the k-th root of p: with some whole part c it is the k-th root of p
times 2^32, rounded down. -/
def isRootFraction (k p : Nat) (v : Word) : Bool :=
  (List.range 8).any fun c =>
    let n := c * 2 ^ 32 + v.toNat
    n ^ k ≤ p * 2 ^ (32 * k) && p * 2 ^ (32 * k) < (n + 1) ^ k

theorem test_rom_K_is_cube_roots :
    (primesBelow 312).length = 64 ∧
    ((primesBelow 312).zip Config.K.toList).all (fun pv => isRootFraction 3 pv.1 pv.2) = true := by decide +kernel

theorem test_rom_IV_is_square_roots :
    (primesBelow 20).length = 8 ∧
    ((primesBelow 20).zip Config.IV.toList).all (fun pv => isRootFraction 2 pv.1 pv.2) = true := by decide +kernel

/-! ### Word arithmetic and word functions: 95_test_vectors.md 4.1 -/

theorem test_word_functions_deadbeef :
    rotr 0xdeadbeef 7 = 0xdfbd5b7d ∧ shr 0xdeadbeef 3 = 0x1bd5b7dd ∧ ssig0 0xdeadbeef = 0xabd31b0b ∧
    ssig1 0xdeadbeef = 0x689dbfec ∧ bsig0 0xdeadbeef = 0xb62e25ac ∧ bsig1 0xdeadbeef = 0x345e14a3 := by decide

theorem test_ch_maj_add :
    ch 0xff00ff00 0x12345678 0x9abcdef0 = 0x12bc56f0 ∧ maj 0xff00ff00 0x12345678 0x9abcdef0 = 0x9a34de70 ∧
    add32 0xffffffff 0x12345678 = 0x12345677 ∧ add32 0x80000000 0x80000000 = 0 := by decide

/-! ### COMPRESS: 95_test_vectors.md sections 3 and 4.2 -/

theorem test_schedule_abc :
    (schedule abcBlock).getD 0 0 = 0x61626380 ∧ (schedule abcBlock).getD 15 0 = 0x00000018 ∧
    (schedule abcBlock).getD 17 0 = 0x000f0000 ∧ (schedule abcBlock).getD 31 0 = 0xd3b7973b ∧
    (schedule abcBlock).getD 63 0 = 0x12b1edeb := by decide +kernel

theorem test_round_0_abc :
    runRounds 1 (schedule abcBlock) (loadRegs Config.IV) =
      ⟨0x5d6aebcd, 0x6a09e667, 0xbb67ae85, 0x3c6ef372, 0xfa2a4622, 0x510e527f, 0x9b05688c, 0x1f83d9ab⟩ := by
  decide +kernel

theorem test_compress_zero :
    compress (Vector.replicate 8 0) (List.replicate 64 0x00) =
      #v[0x7ca51614, 0x425c3ba8, 0xce54dd2f, 0xc2020ae7, 0xb6e574d1, 0x98136d0f, 0xae7e26cc, 0xbf0be7a6] := by
  decide +kernel

/-- The last row of 4.2: chaining, H after 128 bytes 0x61. -/
theorem test_compress_chain :
    compress h64a (aBytes 64) =
      #v[0xeac1afff, 0x7e2fe374, 0x5215a157, 0x6aea3c45, 0x1df0539e, 0x97f91d40, 0xf96170a7, 0x5b4dc721] := by
  decide +kernel

/-! ### INIT and UPDATE: 95_test_vectors.md 4.3 -/

theorem test_init :
    liveOf (exec .init (stateWith h64a [0x61] 0x208)) = some ⟨Config.IV, [], 0⟩ := by decide

theorem test_update_no_block :
    liveOf (exec (.update [0x62, 0x63]) (stateWith Config.IV [0x61] 0x8)) =
      some ⟨Config.IV, [0x61, 0x62, 0x63], 0x18⟩ := by decide +kernel

/-- The counter wrap, which also completes a block. -/
theorem test_update_wrap :
    liveOf (exec (.update [0x61]) (stateWith Config.IV (aBytes 63) 0xfffffffffffffff8)) = some ⟨h64a, [], 0⟩ := by
  decide +kernel

/-- The same block taken by the byte-serial form on the registers (41_accumulator.md R67). -/
theorem test_serial_update :
    (Storage.update ⟨Config.IV, Vector.replicate 64 0x61, 63, 0x1f8⟩ [0x61]).toEngine = ⟨h64a, [], 0x200⟩ := by
  decide +kernel

/-! ### PAD, DIGEST, HEXENC, HEXDIGEST: 95_test_vectors.md 4.4, 4.5 and section 2 -/

theorem test_pad_rows :
    pad 55 0x1b8 = [0x80, 0, 0, 0, 0, 0, 0, 0x01, 0xb8] ∧ zeroFill 56 = 63 ∧ zeroFill 63 = 56 ∧
    (pad 1 0xfffffffffffffe08).drop 55 = [0xff, 0xff, 0xff, 0xff, 0xff, 0xff, 0xfe, 0x08] := by decide

theorem test_digest_empty : seenOf (exec .digest State.reset) = some [0x00 :: emptyDigest] := by decide +kernel

/-- Two blocks: the digest of 56 bytes 0x61. -/
theorem test_digest_two_blocks :
    (Engine.digest ⟨Config.IV, aBytes 56, 0x1c0⟩).take 8 = [0xb3, 0x54, 0x39, 0xa4, 0xac, 0x6f, 0x09, 0x48] := by
  decide +kernel

theorem test_hexEnc : hexEnc [0x01, 0x23, 0x45, 0x67, 0x89, 0xab, 0xcd, 0xef] =
    "0123456789abcdef".toList.map (fun c => BitVec.ofNat 8 c.toNat) := by decide

/-- Row "abc" of section 2, on the response port. -/
theorem test_hexdigest_abc :
    seenOf (exec .hexdigest (stateWith Config.IV [0x61, 0x62, 0x63] 0x18)) = some [0x00 ::
      "ba7816bf8f01cfea414140de5dae2223b00361a396177a9cb410ff61f20015ad".toList.map
        (fun c => BitVec.ofNat 8 c.toNat)] := by decide +kernel

/-! ### DIGEST_OF and HEX_DIGEST_OF: 95_test_vectors.md 4.7 -/

theorem test_digestOf_abc :
    seenOf (exec (.digestOf [0x61, 0x62, 0x63]) (stateWith h64a [0x61] 0x208)) = some [0x00 :: abcDigest] := by
  decide +kernel

theorem test_hexDigestOf_empty :
    seenOf (exec (.hexDigestOf []) (stateWith h64a [0x61] 0x208)) = some [0x00 ::
      "e3b0c44298fc1c149afbf4c8996fb92427ae41e4649b934ca495991b7852b855".toList.map
        (fun c => BitVec.ofNat 8 c.toNat)] := by decide +kernel

/-! ### The step -/

/-- Program P5, step 2: `RAW 00` in mid-stream is answered `01` and changes nothing. -/
theorem test_step_invalid :
    step ⟨⟨Config.IV, [0x61, 0x62], 0x10⟩, [.packet [0x00]], []⟩ |> fun o =>
      liveOf o = some ⟨Config.IV, [0x61, 0x62], 0x10⟩ ∧ seenOf o = some [[0x01]] := by decide

/-- Program P2, step 1, from the line as it is written, `UPDATE "a"`. -/
theorem test_step_line :
    liveOf (step (placePacket State.reset (linePacket ⟨none, .update (.quoted ['a'])⟩))) =
      some ⟨Config.IV, [0x61], 0x8⟩ := by decide +kernel

/-- Lines of programs P6 (step 1) and P5 (step 4) and of 4.3 as they are written (30_encoding.md R55), with their packets. -/
theorem test_lines_written :
    lineChars ⟨some 0, .update (.quoted ['a', 'b'])⟩ = "@0 UPDATE \"ab\"".toList ∧
    lineChars ⟨none, .raw [0x0a, 0x63]⟩ = "RAW 0a 63".toList ∧
    lineChars ⟨none, .update (.rep 0x61 63)⟩ = "UPDATE rep(0x61, 63)".toList ∧
    linePacket ⟨none, .update (.rep 0x61 63)⟩ = 0x02 :: aBytes 63 ∧
    linePacket ⟨none, .raw [0x0a, 0x63]⟩ = [0x0a, 0x63] := by decide +kernel

/-- 93_implementation_defined.md GK4: the bytes of "Hello, World!". -/
theorem test_ascii :
    payloadTextBytes (.quoted "Hello, World!".toList) =
      [0x48, 0x65, 0x6c, 0x6c, 0x6f, 0x2c, 0x20, 0x57, 0x6f, 0x72, 0x6c, 0x64, 0x21] := by decide

/-- An opcode-table word placed by withFetchWord is what the next step runs. -/
theorem test_withFetchWord :
    seenOf (step (State.reset.withFetchWord 8 2)) = some [[0x00]] ∧
    liveOf (step (State.reset.withFetchWord 8 3)) = some Engine.initial := by decide +kernel

/-- Reset in mid-stream, an UPDATE under way: the initial state and no response (70_reset_and_hazards.md R145). -/
theorem test_step_reset :
    step ⟨⟨h64a, [0x61], 0x208⟩, [.reset (some [0x02, 0x62])], []⟩ |> fun o =>
      liveOf o = some Engine.initial ∧ seenOf o = some [] := by decide

/-! ### Witnesses: something meets the hypotheses of each statement, at the ends of each range -/

theorem witness_rotate_amounts : (1 ≤ 1 ∧ 1 ≤ 31) ∧ (1 ≤ 31 ∧ 31 ≤ 31) ∧ 0 < 32 ∧ 31 < 32 := by decide

theorem witness_block : abcBlock.length = 64 ∧ (aBytes 64).length = 64 := by decide

theorem witness_schedule_indexes : 0 < 16 ∧ 15 < 16 ∧ (16 ≤ 16 ∧ 16 ≤ 63) ∧ (16 ≤ 63 ∧ 63 ≤ 63) := by decide

/-- One packet for each arm of the decoder's chain of checks, the last one that passes them all. -/
theorem witness_decoder_arms :
    (0x08 : Byte).toNat / 8 ≠ 0 ∧ ((0x00 : Byte).toNat / 8 = 0 ∧ (0x00 : Byte).toNat % 8 = 0) ∧
    ((0x07 : Byte).toNat / 8 = 0 ∧ (0x07 : Byte).toNat % 8 = 7) ∧
    decodeWith none [0x01, 0x00] = .invalid .unexpectedPayload ∧
    payloadWithin (some 1) [(0 : Byte), 0].length = false ∧ payloadWithin (some 2) [(0 : Byte), 0].length = true := by
  decide

theorem witness_decode_encode :
    decodeWith (some 1) [0x02, 0x61] = .command (.update [0x61]) ∧ Instr.wfWith (some 1) (.update [0x61]) = true ∧
    encode (.update [0x61]) = [0x02, 0x61] := by decide

theorem witness_step_decoded :
    (placePacket State.reset [0x03]).port = .packet [0x03] :: [] ∧ decode [0x03] = .command .digest := by decide

theorem witness_step_invalid :
    (placePacket State.reset [0x03, 0x00]).port = .packet [0x03, 0x00] :: [] ∧
    decode [0x03, 0x00] = .invalid .unexpectedPayload := by decide

/-- A state that a message leads to, with an UPDATE at its port and the step that takes it. -/
theorem witness_message_step :
    Engine.isStateOf (placePacket (stateWith Config.IV [0x61] 0x8) [0x02, 0x62]).live [0x61] ∧
    step (placePacket (stateWith Config.IV [0x61] 0x8) [0x02, 0x62]) =
      .next ⟨⟨Config.IV, [0x61, 0x62], 0x10⟩, [], [⟨.ok, []⟩]⟩ := ⟨by decide +kernel, rfl⟩

/-- Amounts on both sides of each end of the ranges of rotation and shift. -/
theorem witness_amounts_beyond : (0 ≤ 31 ∧ 31 ≤ 31) ∧ (0 = 0 ∨ 32 ≤ 0) ∧ (32 = 0 ∨ 32 ≤ 32) ∧ ¬ (31 = 0 ∨ 32 ≤ 31) := by
  decide

theorem witness_invalid_packet :
    decodeWith none [] = .invalid .emptyPacket ∧ decodeWith none [0x82] = .invalid .reservedBits ∧
    decodeWith none [0x00] = .invalid .reservedOperation ∧ decodeWith none [0x04, 0x00] = .invalid .unexpectedPayload ∧
    decodeWith (some 0) [0x05, 0x00] = .invalid .payloadTooLong := by decide

theorem witness_reset_event :
    (State.reset.withPort [.reset none, .packet [0x03]]).port = .reset none :: [.packet [0x03]] := by decide

theorem witness_wf_step :
    State.wf (stateWith h64a [0x61] 0x208) ∧
    step (stateWith h64a [0x61] 0x208) = .next (stateWith h64a [0x61] 0x208) := ⟨by decide, rfl⟩

/-- A port of each kind for the three arms of `EveryStepAnswers`. -/
theorem witness_ports :
    State.reset.port = [] ∧ (placePacket State.reset [0x03]).port = [.packet [0x03]] ∧
    (State.reset.withPort [.reset none]).port = [.reset none] := by decide

theorem witness_frame :
    readsOnly .digest = true ∧ readsOnly .hexdigest = true ∧ readsOnly (.digestOf []) = true ∧
    readsOnly (.hexDigestOf []) = true ∧
    (stateWith Config.IV (aBytes 62) 0x1f0).live.mb.length + [(0x61 : Byte)].length < 64 := by decide

theorem witness_frame_next :
    exec .digest State.reset = .next (State.reset.respond ⟨.ok, State.reset.live.digest⟩) ∧
    exec (.update [0x61]) (stateWith Config.IV (aBytes 62) 0x1f0) = .next
      ((stateWith Config.IV (aBytes 62) 0x1f0).withLive
        ((stateWith Config.IV (aBytes 62) 0x1f0).live.update [0x61]) |>.respond ⟨.ok, []⟩) := ⟨rfl, rfl⟩

theorem witness_zero_length :
    State.reset.live.mb.length < 64 ∧ (stateWith Config.IV (aBytes 63) 0x1f8).live.mb.length < 64 := by decide

theorem witness_pieces : [[(0x61 : Byte)], [], [0x62, 0x63]] ≠ [] := by decide

/-- Two whole packets and one still arriving: `01`, `02 61` and the first two bytes of a third. -/
theorem test_frame :
    frame [] [⟨0x01, true⟩, ⟨0x02, false⟩, ⟨0x61, true⟩, ⟨0x02, false⟩, ⟨0x62, false⟩] =
      ([[0x01], [0x02, 0x61]], [0x02, 0x62]) := by decide

theorem witness_whole_packets : ∀ p ∈ [[(0x01 : Byte)], [0x02, 0x61]], p ≠ [] := by decide

theorem witness_initial : State.reset.isInitial := by decide

theorem witness_wrap :
    (stateWith h64a (List.replicate 63 0x61) 0xfffffffffffffff8).live =
      ⟨h64a, List.replicate 63 0x61, 0xfffffffffffffff8⟩ := rfl

/-- Pending lengths at the ends of the one-block and two-block ranges. -/
theorem witness_pending_lengths :
    (aBytes 0).length ≤ 55 ∧ (aBytes 55).length ≤ 55 ∧ ¬ (aBytes 56).length ≤ 55 ∧ (aBytes 56).length ≤ 63 ∧
    (aBytes 63).length ≤ 63 ∧ (stateWith Config.IV (aBytes 55) 0x1b8).live.mb.length ≤ 63 ∧
    (stateWith Config.IV (aBytes 56) 0x1c0).live.mb.length ≤ 63 := by decide

/-- Zero bytes at the ends of their ranges: z = 55 for L = 0, none for L = 55, 63 for L = 56. -/
theorem witness_zero_fill : zeroFill 0 = 55 ∧ zeroFill 55 = 0 ∧ zeroFill 56 = 63 := by decide

theorem witness_hex_index : 0 < [(0xe3 : Byte), 0xb0].length ∧ 1 < [(0xe3 : Byte), 0xb0].length := by decide

theorem witness_digest_commands :
    ((Instr.digest = .digest ∨ Instr.digest = .hexdigest) ∧ (Instr.hexdigest = .digest ∨ Instr.hexdigest = .hexdigest)) ∧
    (Instr.digestOf [1] = .digestOf [1] ∨ Instr.digestOf [1] = .hexDigestOf [1]) ∧
    (Instr.hexDigestOf [1] = .digestOf [1] ∨ Instr.hexDigestOf [1] = .hexDigestOf [1]) := by decide

theorem witness_reads_between :
    ∀ i ∈ [Instr.hexdigest, .digestOf [0x61], .hexDigestOf []], readsOnly i = true := by decide

theorem witness_engines : (0 : Fin 2) ≠ 1 ∧ (resetSystem 2)[(0 : Fin 2)] = State.reset := by decide

end Sys2Proof.Tests
end

/-! ## 20_memory.md: the digest's byte order (R34) and the MessageBuffer as a queue (R44) -/

namespace Sys2Proof.Machine

/-! ### The bytes of a sequence of words -/

/-- Byte j of a word, counted from the most significant (20_memory.md R34). -/
theorem getElem?_be32 (v : Word) (j : Fin 4) : (be32 v)[j.val]? = some (v.extractLsb' (24 - 8 * j) 8) := by
  match j with
  | 0 | 1 | 2 | 3 => rfl

/-- Each word takes four bytes: byte j of word i stands at 4i + j. -/
theorem getElem?_flatMap_be32 (ws : List Word) (i : Nat) (hi : i < ws.length) (j : Fin 4) :
    (ws.flatMap be32)[4 * i + j.val]? = some (ws[i].extractLsb' (24 - 8 * j) 8) := by
  induction ws generalizing i with
  | nil => exact absurd hi (Nat.not_lt_zero i)
  | cons w ws ih =>
    rw [List.flatMap_cons]
    cases i with
    | zero =>
      rw [Nat.mul_zero, Nat.zero_add, List.getElem?_append_left (by simp), getElem?_be32, List.getElem_cons_zero]
    | succ i =>
      have hpast : 4 * (i + 1) + j.val - (be32 w).length = 4 * i + j.val := by rw [length_be32]; omega
      rw [List.getElem?_append_right (by rw [length_be32]; omega), hpast, ih i (Nat.lt_of_succ_lt_succ hi),
        List.getElem_cons_succ]

/-! ### The blocks and the tail of a sequence are the sequence -/

theorem length_of_mem_blocksOf {s b : List Byte} (hb : b ∈ blocksOf s) : b.length = 64 := by
  simp only [blocksOf, List.mem_map, List.mem_range] at hb
  obtain ⟨k, hk, rfl⟩ := hb
  simp only [slice, List.length_take, List.length_drop]
  omega

theorem flatten_blocksOf_append_tailOf (s : List Byte) : (blocksOf s).flatten ++ tailOf s = s := by
  induction hn : s.length using Nat.strong_induction_on generalizing s with
  | _ n ih =>
    by_cases hs : 64 ≤ s.length
    · rw [blocksOf_long hs, tailOf_long hs, List.flatten_cons, List.append_assoc,
        ih (s.drop 64).length (by simp only [List.length_drop]; omega) _ rfl, List.take_append_drop]
    · rw [blocksOf_short (by omega), tailOf_short (by omega), List.flatten_nil, List.nil_append]

theorem length_tailOf_lt (s : List Byte) : (tailOf s).length < 64 := by
  rw [length_tailOf]
  omega

/-! ### The live state after a sequence of commands -/

/-- Two UPDATEs, one after the other, are one UPDATE of both payloads (41_accumulator.md R68). -/
theorem update_update (e : Engine) (d d' : List Byte) : (e.update d).update d' = e.update (d ++ d') := by
  simp only [update_eq, countBits_countBits, List.length_append, ← List.append_assoc,
    blocksOf_append (e.mb ++ d), tailOf_append (e.mb ++ d), List.foldl_append]

/-- An empty UPDATE leaves a fresh engine as it is. -/
theorem initial_update_nil : Engine.initial.update [] = Engine.initial := rfl

/-- Every command takes the state of a logical message to the state of the message it makes of it (41_accumulator.md R70). -/
theorem nextLive_initial_update (i : Instr) (m : List Byte) :
    nextLive i (Engine.initial.update m) = Engine.initial.update (messageWith m i) := by
  cases i with
  | init => exact initial_update_nil.symm
  | update data => exact update_update _ m data
  | digest | hexdigest | digestOf _ | hexDigestOf _ => rfl

theorem liveAfter_initial_update (cs : List Instr) (m : List Byte) :
    liveAfter cs (Engine.initial.update m) = Engine.initial.update (cs.foldl messageWith m) := by
  induction cs generalizing m with
  | nil => rfl
  | cons i cs ih =>
    calc liveAfter (i :: cs) (Engine.initial.update m)
        = liveAfter cs (nextLive i (Engine.initial.update m)) := rfl
      _ = liveAfter cs (Engine.initial.update (messageWith m i)) := by rw [nextLive_initial_update]
      _ = Engine.initial.update (cs.foldl messageWith (messageWith m i)) := ih _

/-- From the initial state, a sequence of commands leads to the state of its logical message (41_accumulator.md R70). -/
theorem liveAfter_initial (cs : List Instr) :
    liveAfter cs Engine.initial = Engine.initial.update (logicalMessage cs) :=
  liveAfter_initial_update cs []

end Sys2Proof.Machine

section
open Sys2Proof Sys2Proof.Machine

/-- Settles O35: word i contributes the four bytes at 4i, and byte j of a word is its bits from 24 - 8j on. -/
theorem serializeIsBigEndian : Obligations.SerializeIsBigEndian := by
  intro f
  refine ⟨length_serialize f, fun i j => ?_⟩
  have hi : i.val < f.toList.length := by simp
  rw [serialize, getElem?_flatMap_be32 f.toList i hi j, Vector.getElem_toList, Fin.getElem_fin]

/-- Settles O31: the consumed blocks are the whole blocks of the logical message and MB is its tail, since the live state is
the one its logical message leads to. -/
theorem bufferIsAQueue : Obligations.BufferIsAQueue := by
  intro s cs hs
  refine ⟨_, execAll_eq cs s, ?_⟩
  have hlive : liveAfter cs s.live =
      ⟨(blocksOf (logicalMessage cs)).foldl compress Config.IV, tailOf (logicalMessage cs),
        countBits 0 (logicalMessage cs).length⟩ := by
    rw [hs, liveAfter_initial, update_eq]
    rfl
  rw [hlive]
  exact ⟨blocksOf (logicalMessage cs), fun _ => length_of_mem_blocksOf, rfl,
    flatten_blocksOf_append_tailOf _, length_tailOf_lt _⟩

end

/-! ## 41_accumulator.md: the zero-length UPDATE (R69) and chunking invariance (R68) -/

namespace Sys2Proof.Machine

@[simp] theorem countBits_zero (b : LongWord) : countBits b 0 = b := by simp [countBits]

/-- An empty UPDATE finds no whole block among fewer than 64 pending bytes (41_accumulator.md R69). -/
theorem update_nil {e : Engine} (he : e.mb.length < 64) : e.update [] = e := by
  rw [update_eq, List.append_nil, blocksOf_short he, tailOf_short he, List.length_nil, countBits_zero, List.foldl_nil]

/-- UPDATEs of some pieces, after one of `d`, are one UPDATE of `d` and all the pieces. -/
theorem liveAfter_updates_update (pieces : List (List Byte)) (e : Engine) (d : List Byte) :
    liveAfter (pieces.map .update) (e.update d) = e.update (d ++ pieces.flatten) := by
  induction pieces generalizing d with
  | nil => rw [List.flatten_nil, List.append_nil]; rfl
  | cons p ps ih =>
    calc liveAfter ((p :: ps).map .update) (e.update d)
        = liveAfter (ps.map .update) ((e.update d).update p) := rfl
      _ = liveAfter (ps.map .update) (e.update (d ++ p)) := by rw [update_update]
      _ = e.update (d ++ (p :: ps).flatten) := by rw [ih, List.flatten_cons, List.append_assoc]

/-- UPDATEs of at least one piece are one UPDATE of them all. For no piece this needs fewer than 64 pending bytes, as an
UPDATE would absorb 64 or more. -/
theorem liveAfter_updates {pieces : List (List Byte)} (hne : pieces ≠ []) (e : Engine) :
    liveAfter (pieces.map .update) e = e.update pieces.flatten := by
  cases pieces with
  | nil => exact absurd rfl hne
  | cons p ps => exact liveAfter_updates_update ps e p

/-- DIGEST responds with the digest of the live state, whatever that state is known to be. -/
theorem exec_digest_of_live {t : State} {e : Engine} (ht : t.live = e) :
    exec .digest t = .next (t.respond ⟨.ok, e.digest⟩) := by
  subst ht
  exact exec_eq .digest t

end Sys2Proof.Machine

section
open Sys2Proof Sys2Proof.Machine

/-- Settles O26: with fewer than 64 pending bytes an empty UPDATE stores the live state it found. -/
theorem zeroLengthUpdateIsANoOp : Obligations.ZeroLengthUpdateIsANoOp := by
  intro s hs
  have hlive : nextLive (.update []) s.live = s.live := update_nil hs
  rw [exec_eq, hlive]
  rfl

/-- Settles O27: both splits reach the live state of one UPDATE of the whole message, and DIGEST reads only that state. -/
theorem chunkingInvariance : Obligations.ChunkingInvariance := by
  refine ⟨fun s x y => ?_, fun s pieces hne => ?_⟩
  · exact ⟨_, _, execAll_eq _ s, exec_eq _ s, update_update s.live x y⟩
  · exact ⟨_, _, (s.live.update pieces.flatten).digest, execAll_eq _ s, exec_eq _ s,
      exec_digest_of_live (liveAfter_updates hne s.live), exec_digest_of_live rfl⟩

end

/-! ## 42_compression.md: rotation and shift (R81, R82), the sigma functions (R84 to R87), the schedule (R90, R91) -/

namespace Sys2Proof.Machine

/-! ### Rotation and shift -/

/-- For the amounts for which R81 defines it, the source's formula is the library's rotation. -/
theorem rotr_eq_rotateRight (x : Word) {n : Nat} (hn : n ≤ 31) : rotr x n = x.rotateRight n := by
  rw [BitVec.rotateRight_def, Nat.mod_eq_of_lt (by omega), rotr]

/-- Bit i of a rotation is bit (i + n) mod 32: a bit that would come from beyond bit 31 comes from the low end (R81). -/
theorem getLsbD_rotr (x : Word) {n i : Nat} (hn : n ≤ 31) (hi : i < 32) :
    (rotr x n).getLsbD i = x.getLsbD ((i + n) % 32) := by
  rw [rotr_eq_rotateRight x hn, BitVec.getLsbD_rotateRight, Nat.mod_eq_of_lt (a := n) (by omega)]
  by_cases hin : i < 32 - n
  · have hpos : (i + n) % 32 = n + i := by omega
    simp [hin, hpos]
  · have hpos : (i + n) % 32 = i - (32 - n) := by omega
    simp [hin, hi, hpos]

/-- The two parts of a rotation do not overlap: the high 32 - n bits move down, the low n bits move to the top (R81). -/
theorem toNat_rotr (x : Word) {n : Nat} (hn : n ≤ 31) :
    (rotr x n).toNat = x.toNat / 2 ^ n + x.toNat % 2 ^ n * 2 ^ (32 - n) := by
  have hpow : 2 ^ 32 = 2 ^ n * 2 ^ (32 - n) := by rw [← Nat.pow_add, Nat.add_sub_cancel' (by omega)]
  have hlow : x.toNat / 2 ^ n < 2 ^ (32 - n) := Nat.div_lt_of_lt_mul (hpow ▸ x.isLt)
  calc (rotr x n).toNat
      = x.toNat / 2 ^ n ||| x.toNat * 2 ^ (32 - n) % 2 ^ 32 := by
        rw [rotr, BitVec.toNat_or, BitVec.toNat_ushiftRight, BitVec.toNat_shiftLeft, Nat.shiftRight_eq_div_pow,
          Nat.shiftLeft_eq]
    _ = 2 ^ (32 - n) * (x.toNat % 2 ^ n) ||| x.toNat / 2 ^ n := by
        rw [hpow, Nat.mul_mod_mul_right, Nat.mul_comm, Nat.or_comm]
    _ = x.toNat / 2 ^ n + x.toNat % 2 ^ n * 2 ^ (32 - n) := by
        rw [← Nat.two_pow_add_eq_or_of_lt hlow, Nat.add_comm, Nat.mul_comm]

/-- Bit i of a shift is bit i + n, and 0 where that is beyond bit 31 (R82). -/
theorem getLsbD_shr (x : Word) (n i : Nat) :
    (shr x n).getLsbD i = (decide (i + n < 32) && x.getLsbD (i + n)) := by
  rw [shr, BitVec.getLsbD_ushiftRight, Nat.add_comm n i]
  by_cases hin : i + n < 32
  · simp [hin]
  · simp [hin, BitVec.getLsbD_of_ge x (i + n) (by omega)]

theorem toNat_shr (x : Word) (n : Nat) : (shr x n).toNat = x.toNat / 2 ^ n := by
  rw [shr, BitVec.toNat_ushiftRight, Nat.shiftRight_eq_div_pow]

/-! ### The sigma functions -/

/-- Σ0 and Σ1 are of this form: the XOR of three rotations. -/
theorem getLsbD_xor_rotr_rotr_rotr (x : Word) {k m n i : Nat} (hk : k ≤ 31) (hm : m ≤ 31) (hn : n ≤ 31) (hi : i < 32) :
    (rotr x k ^^^ rotr x m ^^^ rotr x n).getLsbD i =
      ((x.getLsbD ((i + k) % 32) ^^ x.getLsbD ((i + m) % 32)) ^^ x.getLsbD ((i + n) % 32)) := by
  rw [BitVec.getLsbD_xor, BitVec.getLsbD_xor, getLsbD_rotr x hk hi, getLsbD_rotr x hm hi, getLsbD_rotr x hn hi]

/-- σ0 and σ1 are of this form: the XOR of two rotations and a shift. -/
theorem getLsbD_xor_rotr_rotr_shr (x : Word) {k m i : Nat} (hk : k ≤ 31) (hm : m ≤ 31) (n : Nat) (hi : i < 32) :
    (rotr x k ^^^ rotr x m ^^^ shr x n).getLsbD i =
      ((x.getLsbD ((i + k) % 32) ^^ x.getLsbD ((i + m) % 32)) ^^ (decide (i + n < 32) && x.getLsbD (i + n))) := by
  rw [BitVec.getLsbD_xor, BitVec.getLsbD_xor, getLsbD_rotr x hk hi, getLsbD_rotr x hm hi, getLsbD_shr]

/-! ### The message schedule -/

/-- A byte set after some bits is the last digit in base 2^8. -/
theorem toNat_append_byte {m : Nat} (x : BitVec m) (y : Byte) : (x ++ y).toNat = x.toNat * 2 ^ 8 + y.toNat := by
  rw [BitVec.toNat_append, ← Nat.shiftLeft_add_eq_or_of_lt y.isLt, Nat.shiftLeft_eq]

/-- A big-endian word as the weighted sum of its four bytes (20_memory.md R32). -/
theorem toNat_wordBE (s : List Byte) (k : Nat) :
    (wordBE s k).toNat = (s.getD k 0).toNat * 2 ^ 24 + (s.getD (k + 1) 0).toNat * 2 ^ 16 +
      (s.getD (k + 2) 0).toNat * 2 ^ 8 + (s.getD (k + 3) 0).toNat := by
  simp only [wordBE, toNat_append_byte]
  omega

theorem getD_loadBlock (b : List Byte) {i : Nat} (hi : i < 16) : (loadBlock b).getD i 0 = wordBE b (4 * i) := by
  simp [loadBlock, hi]

/-- Extending a schedule keeps the words already there. -/
theorem prefix_extendSchedule (n : Nat) (w : List Word) : w <+: extendSchedule n w := by
  induction n generalizing w with
  | zero => exact List.prefix_rfl
  | succ n ih => exact (List.prefix_append w _).trans (ih _)

/-- Each appended word is the one that follows the words before it, in the finished schedule too (R91). -/
theorem getElem?_extendSchedule {n i : Nat} {w : List Word} (hw : w.length ≤ i) (hi : i < w.length + n) :
    (extendSchedule n w)[i]? = some (nextScheduleWord ((extendSchedule n w).take i)) := by
  induction n generalizing w with
  | zero => omega
  | succ n ih =>
    rw [extendSchedule]
    have hpre := prefix_extendSchedule n (w ++ [nextScheduleWord w])
    obtain rfl | hlt := hw.eq_or_lt
    · have htake := List.prefix_iff_eq_take.mp ((List.prefix_append w _).trans hpre)
      rw [← htake, List.prefix_iff_getElem?.mp hpre _ (by simp), List.getElem_concat_length rfl]
    · exact ih (by simpa using hlt) (by simp; omega)

/-- The word that follows the first i words of a schedule, by the four words of it that R91 names. -/
theorem nextScheduleWord_take {w : List Word} {i : Nat} (h16 : 16 ≤ i) (hi : i ≤ w.length) :
    nextScheduleWord (w.take i) =
      add32 (add32 (add32 (ssig1 (w.getD (i - 2) 0)) (w.getD (i - 7) 0)) (ssig0 (w.getD (i - 15) 0)))
        (w.getD (i - 16) 0) := by
  have hback : ∀ d, 0 < d → (w.take i).getD (i - d) 0 = w.getD (i - d) 0 := fun d hd => by
    rw [List.getD_eq_getElem?_getD, List.getD_eq_getElem?_getD, List.getElem?_take_of_lt (by omega)]
  simp only [nextScheduleWord, List.length_take_of_le hi]
  rw [hback 2 (by decide), hback 7 (by decide), hback 15 (by decide), hback 16 (by decide)]

/-- W[0..15] are the words of the block (R90). -/
theorem getD_schedule_of_lt (b : List Byte) {i : Nat} (hi : i < 16) : (schedule b).getD i 0 = wordBE b (4 * i) := by
  have hpre := prefix_extendSchedule 48 (loadBlock b)
  have hi' : i < (loadBlock b).length := by rwa [length_loadBlock]
  rw [← getD_loadBlock b hi, schedule, List.getD_eq_getElem?_getD, List.prefix_iff_getElem?.mp hpre i hi',
    List.getD_eq_getElem _ _ hi', Option.getD_some]

/-- W[16..63] follow the recurrence (R91). -/
theorem getD_schedule_of_ge (b : List Byte) {i : Nat} (h16 : 16 ≤ i) (hi : i < 64) :
    (schedule b).getD i 0 =
      add32 (add32 (add32 (ssig1 ((schedule b).getD (i - 2) 0)) ((schedule b).getD (i - 7) 0))
        (ssig0 ((schedule b).getD (i - 15) 0))) ((schedule b).getD (i - 16) 0) := by
  have hnext : (schedule b)[i]? = some (nextScheduleWord ((schedule b).take i)) :=
    getElem?_extendSchedule (by rwa [length_loadBlock]) (by rwa [length_loadBlock])
  rw [List.getD_eq_getElem?_getD, hnext, Option.getD_some,
    nextScheduleWord_take h16 (by rw [length_schedule]; exact hi.le)]

end Sys2Proof.Machine

section
open Sys2Proof Sys2Proof.Machine

/-- Settles O2: the source's formula is the library's rotation, whose two parts share no bit; the examples are evaluated. -/
theorem rotateAndShiftMoveEveryBit : Obligations.RotateAndShiftMoveEveryBit := by
  refine ⟨fun x n i _ hn hi => getLsbD_rotr x hn hi, fun x n _ hn => toNat_rotr x hn,
    fun x n _ => ⟨toNat_shr x n, fun i _ => getLsbD_shr x n i⟩, ?examples⟩
  case examples => decide

/-- Settles O3: the equations are the definitions, and XOR acts bit by bit on rotations and shifts; the examples are
evaluated. -/
theorem sigmaFunctionsBitByBit : Obligations.SigmaFunctionsBitByBit := by
  refine ⟨fun x => ⟨rfl, rfl, rfl, rfl⟩, fun x i hi => ⟨?ssig0, ?ssig1, ?bsig0, ?bsig1⟩, ?examples⟩
  case ssig0 => exact getLsbD_xor_rotr_rotr_shr x (by decide) (by decide) 3 hi
  case ssig1 => exact getLsbD_xor_rotr_rotr_shr x (by decide) (by decide) 10 hi
  case bsig0 => exact getLsbD_xor_rotr_rotr_rotr x (by decide) (by decide) (by decide) hi
  case bsig1 => exact getLsbD_xor_rotr_rotr_rotr x (by decide) (by decide) (by decide) hi
  case examples => decide

/-- Settles O5: extending the schedule keeps the loaded words and appends the word that follows them, 48 times. -/
theorem scheduleFollowsItsRecurrence : Obligations.ScheduleFollowsItsRecurrence := by
  refine ⟨fun b _ => ⟨length_schedule b, fun i hi => ?_, fun i h16 hi => ?_⟩,
    fun st i hi => getD_schedule_of_lt st.buf.toList hi⟩
  · rw [getD_schedule_of_lt b hi, toNat_wordBE]
  · exact getD_schedule_of_ge b h16 (by omega)

end

/-! ## 43_finalizer.md: PAD (R100), non-destructive digests (R105) and digests in mid-stream (R109) -/

namespace Sys2Proof.Machine

/-! ### The bytes of the padding -/

/-- The zero fill is R100's z as an integer: the remainder is not negative, so `toNat` cuts nothing off. -/
theorem cast_zeroFill (l : Nat) : (zeroFill l : Int) = (55 - (l : Int)) % 64 :=
  Int.toNat_of_nonneg (Int.emod_nonneg _ (by decide))

/-- Byte j of the counter, counted from the most significant (20_memory.md R33). -/
theorem getD_be64 (n : LongWord) (j : Fin 8) (d : Byte) : (be64 n).getD j d = n.extractLsb' (56 - 8 * j) 8 := by
  match j with
  | 0 | 1 | 2 | 3 | 4 | 5 | 6 | 7 => rfl

theorem pad_eq_cons (l : Nat) (n : LongWord) : pad l n = 0x80 :: (List.replicate (zeroFill l) 0x00 ++ be64 n) := rfl

theorem getD_pad_zeros {l i : Nat} (n : LongWord) (d : Byte) (h1 : 1 ≤ i) (hi : i ≤ zeroFill l) :
    (pad l n).getD i d = 0x00 := by
  obtain ⟨k, rfl⟩ := Nat.exists_eq_add_of_le' h1
  have hk : k < zeroFill l := hi
  rw [pad_eq_cons, List.getD_cons_succ, List.getD_append _ _ _ _ (by rwa [List.length_replicate]),
    List.getD_replicate _ hk]

theorem getD_pad_suffix (l : Nat) (n : LongWord) (d : Byte) (j : Fin 8) :
    (pad l n).getD (1 + zeroFill l + j) d = n.extractLsb' (56 - 8 * j) 8 := by
  have hpos : 1 + zeroFill l + j = zeroFill l + j + 1 := by omega
  rw [hpos, pad_eq_cons, List.getD_cons_succ, List.getD_append_right _ _ _ _ (by simp), List.length_replicate,
    Nat.add_sub_cancel_left, getD_be64]

/-! ### The commands that write no live state -/

theorem nextLive_of_readsOnly {i : Instr} (hi : readsOnly i = true) (e : Engine) : nextLive i e = e := by
  cases i with
  | init | update _ => cases hi
  | digest | hexdigest | digestOf _ | hexDigestOf _ => rfl

/-- A reading command adds its own response and nothing else: the commands after it run from the live state it found, so
they give what they would have given without it. -/
theorem execAll_cons_of_readsOnly {i : Instr} (hi : readsOnly i = true) (cs : List Instr) (s : State) :
    execAll (i :: cs) s = .next ⟨liveAfter cs s.live, s.port,
      s.responses ++ ⟨.ok, resultOf i s.live⟩ :: answersTo cs s.live⟩ := by
  have hlive : liveAfter (i :: cs) s.live = liveAfter cs (nextLive i s.live) := rfl
  rw [execAll_eq, hlive, answersTo, nextLive_of_readsOnly hi]

end Sys2Proof.Machine

section
open Sys2Proof Sys2Proof.Machine

/-- Settles O33: z is the residue of 55 - L, hence below 64 and least; the bytes are read off the three parts of the
padding. -/
theorem padAppendsMarkerZerosAndLength : Obligations.PadAppendsMarkerZerosAndLength := by
  refine ⟨fun l n _ => ?_, by decide⟩
  have hz := cast_zeroFill l
  exact ⟨zeroFill l, hz, by omega, fun z' _ => by omega, length_pad l n, rfl,
    fun i h1 hi => getD_pad_zeros n 0xff h1 hi, fun j => getD_pad_suffix l n 0xff j⟩

/-- Settles O39: DIGEST and HEXDIGEST are reading commands, so the commands that follow run from the same live state. -/
theorem digestsAreNonDestructive : Obligations.DigestsAreNonDestructive := by
  intro i s cs hi
  have hreads : readsOnly i = true := by
    obtain rfl | rfl := hi <;> rfl
  exact ⟨⟨_, exec_eq i s, nextLive_of_readsOnly hreads s.live⟩,
    _, _, _, _, execAll_cons_of_readsOnly hreads cs s, execAll_eq cs s, rfl, rfl, rfl⟩

/-- Settles O41: DIGEST_OF digests a fresh engine after one UPDATE of its payload; the live engine is that one after m1, and
after m2 too, since two UPDATEs are one of both payloads. -/
theorem midStreamDigests : Obligations.MidStreamDigests := by
  intro s m1 m2 hs
  have hboth : (Engine.initial.update m1).update m2 = Engine.initial.update (m1 ++ m2) := update_update _ m1 m2
  have hanswers : answersTo [.update m1, .digest, .update m2, .digest] Engine.initial =
      [⟨.ok, []⟩, ⟨.ok, digestOfPayload m1⟩, ⟨.ok, []⟩, ⟨.ok, digestOfPayload (m1 ++ m2)⟩] := by
    simp only [answersTo, nextLive, resultOf, hboth, digestOfPayload, oneShotContext]
  refine ⟨digestOfPayload m1, digestOfPayload (m1 ++ m2), ⟨_, execAll_eq _ s, ?_⟩,
    fun s' => ⟨exec_eq (.digestOf m1) s', exec_eq (.digestOf (m1 ++ m2)) s'⟩⟩
  rw [hs, hanswers]

end

/-! ## 44_oneshot.md: the one-shot result (R117) -/

namespace Sys2Proof.Machine

/-- FINALIZE ends in a serialization, so it gives 32 bytes whatever its operands (43_finalizer.md R102). -/
@[simp] theorem length_finalize (hin : Vector Word 8) (m : List Byte) (n : LongWord) : (finalize hin m n).length = 32 :=
  length_serialize (finalWords hin m n)

@[simp] theorem length_digest (e : Engine) : e.digest.length = 32 := length_finalize e.h e.mb e.bitlen

@[simp] theorem length_digestOfPayload (m : List Byte) : (digestOfPayload m).length = 32 :=
  length_digest (oneShotContext m)

end Sys2Proof.Machine

section
open Sys2Proof Sys2Proof.Machine

/-- Settles O44: the result is the digest of the payload's own scratch context, in which no state occurs, and DIGEST_OF
stores the live state it found. -/
theorem oneShotIsAPureFunctionOfThePayload : Obligations.OneShotIsAPureFunctionOfThePayload := by
  intro m
  exact ⟨digestOfPayload m, length_digestOfPayload m, fun s => exec_eq (.digestOf m) s⟩

end

/-! ## 60_exceptions.md: the answer to an invalid packet (R127) -/

namespace Sys2Proof.Machine

/-- An invalid packet is answered, whichever of the five cases it is (60_exceptions.md R127). -/
theorem receiveWith_of_invalid {bound : Option Nat} {p : Packet} {why : InvalidInput}
    (h : decodeWith bound p = .invalid why) (s : State) :
    receiveWith bound p s = .next (s.respond ⟨.invalidInput, []⟩) := by
  rcases receiveWith_cases bound p s with ⟨i, hi, -⟩ | ⟨-, -, hr⟩
  · rw [h] at hi
    cases hi
  · exact hr

/-- A response given is the last byte sequence the response port has carried. -/
theorem observation_respond (s : State) (r : Response) :
    observation (s.respond r) = observation s ++ [responseBytes r] := by
  rw [observation, respond_responses, List.map_append, List.map_singleton, observation]

end Sys2Proof.Machine

section
open Sys2Proof Sys2Proof.Machine

/-- Settles O14: an invalid packet gives one response, and giving a response changes nothing but the list of responses. -/
theorem invalidPacketIsAnsweredAndWritesNothing : Obligations.InvalidPacketIsAnsweredAndWritesNothing := by
  intro bound p s why h
  exact ⟨s.respond ⟨.invalidInput, []⟩, receiveWith_of_invalid h s, respond_live s _, respond_port s _,
    observation_respond s _⟩

end

/-! ## 30_encoding.md part A: decoder and encoder (R45 to R50, R130), table packets (R58) and written lines (R55) -/

namespace Sys2Proof

/-- The bound is the last check: it refuses a command or lets it through, and makes no command of its own. -/
theorem checkBound_eq_command_iff {bound : Option Nat} {d : Decoded} {i : Instr} :
    checkBound bound d = .command i ↔ d = .command i ∧ i.wfWith bound = true := by
  cases d with
  | invalid why => simp [checkBound]
  | command j =>
    rw [checkBound, Decoded.command.injEq]
    split
    · next hj => rw [Decoded.command.injEq, iff_self_and]; exact fun hij => hij ▸ hj
    · next hj => exact iff_of_false Decoded.noConfusion fun ⟨hij, hi⟩ => hj (hij ▸ hi)

/-- The command an operation code and a payload spell is the one with that code and that payload (30_encoding.md R47). -/
theorem decodeOp_eq_command_iff {op : BitVec 3} {data : List Byte} {i : Instr} :
    decodeOp op data = .command i ↔ opcodeOf i = op ∧ i.payload = data := by
  constructor
  · intro h
    unfold decodeOp decodeBare at h
    split_ifs at h <;> cases h <;> simp_all [opcodeOf, Instr.payload]
  · rintro ⟨rfl, rfl⟩
    cases i <;> rfl

/-- A header byte is its two fields, RSV above OP (30_encoding.md R45). -/
theorem header_eq_append : ∀ header : Byte, headerRsv header ++ headerOp header = header := by decide

/-- A byte is the header of a command exactly when RSV is zero and OP is the command's code. -/
theorem headerOf_eq_iff {i : Instr} {header : Byte} :
    headerOf i = header ↔ headerRsv header = 0#5 ∧ opcodeOf i = headerOp header := by
  constructor
  · rintro rfl
    obtain ⟨hrsv, hop⟩ := Laws.EncodedHeader.header_fields (opcodeOf i)
    exact ⟨hrsv, hop.symm⟩
  · rintro ⟨hrsv, hop⟩
    rw [headerOf, hop, ← hrsv, header_eq_append]

theorem decodeWith_cons_eq_command_iff {bound : Option Nat} {header : Byte} {data : List Byte} {i : Instr} :
    decodeWith bound (header :: data) = .command i ↔
      headerRsv header = 0#5 ∧ decodeOp (headerOp header) data = .command i ∧ i.wfWith bound = true := by
  rw [decodeWith]
  split
  · next hrsv => simp [hrsv]
  · next hrsv => rw [checkBound_eq_command_iff, and_iff_right (not_not.mp hrsv)]

/-- Decoding and encoding agree, on every platform bound (30_encoding.md R45, R47, R50). -/
theorem decodeWith_eq_command_iff {bound : Option Nat} {p : Packet} {i : Instr} :
    decodeWith bound p = .command i ↔ encode i = p ∧ i.wfWith bound = true := by
  cases p with
  | nil => simp [decodeWith, encode]
  | cons header data =>
    rw [decodeWith_cons_eq_command_iff, decodeOp_eq_command_iff, encode, List.cons_eq_cons, headerOf_eq_iff]
    tauto

end Sys2Proof

section
open Sys2Proof Sys2Proof.Machine

/-- Settles O8: the header is RSV = 0 above the command's code, the rest is its payload, and the bound is checked last. -/
theorem decodeAndEncodeAgree : Obligations.DecodeAndEncodeAgree := by
  intro bound p i
  exact decodeWith_eq_command_iff

end

/-! ## 10_state.md section 5: what every step keeps (R12, R25) -/

namespace Sys2Proof.Machine

/-- Well-formedness as arithmetic: the low nine bits of BITLEN are eight times the number of pending bytes. -/
theorem wf_iff (e : Engine) : e.wf ↔ e.mb.length < 64 ∧ e.bitlen.toNat % 512 = 8 * e.mb.length := by
  refine and_congr_right fun hmb => ?_
  simp only [Engine.buflen, BitVec.toNat_eq, BitVec.extractLsb'_toNat, BitVec.toNat_ofNat, Nat.shiftRight_eq_div_pow]
  omega

theorem initial_wf : Engine.initial.wf := by decide

/-- UPDATE keeps the invariants: 512 divides 2^64, so the counter's wrap does not touch its low nine bits. -/
theorem update_wf {e : Engine} (he : e.wf) (data : List Byte) : (e.update data).wf := by
  rw [wf_iff] at he ⊢
  rw [update_eq]
  simp only [length_tailOf, List.length_append, countBits, BitVec.toNat_ofNat]
  omega

theorem nextLive_wf {e : Engine} (he : e.wf) (i : Instr) : (nextLive i e).wf := by
  cases i with
  | init => exact initial_wf
  | update data => exact update_wf he data
  | digest | hexdigest | digestOf _ | hexDigestOf _ => exact he

/-! ### What a host event does, as a function of the live state -/

/-- The live state after a host event. -/
def liveOnEvent (ev : HostEvent) (e : Engine) : Engine :=
  match ev with
  | .packet p => match decode p with
    | .command i => nextLive i e
    | .invalid _ => e
  | .reset _ => Engine.initial

/-- The responses to a host event: one to a packet, none to a reset. -/
def answersOnEvent (ev : HostEvent) (e : Engine) : List Response :=
  match ev with
  | .packet p => match decode p with
    | .command i => [⟨.ok, resultOf i e⟩]
    | .invalid _ => [⟨.invalidInput, []⟩]
  | .reset _ => []

/-- A packet that spells a command has it executed. -/
theorem receiveWith_of_command {bound : Option Nat} {p : Packet} {i : Instr} (h : decodeWith bound p = .command i)
    (s : State) : receiveWith bound p s = exec i s := by
  rw [receiveWith, h]

/-- Everything a host event can do: it stores a live state and adds its responses. -/
theorem handle_eq (ev : HostEvent) (s : State) :
    handle ev s = .next ⟨liveOnEvent ev s.live, s.port, s.responses ++ answersOnEvent ev s.live⟩ := by
  cases ev with
  | packet p =>
    rw [liveOnEvent, answersOnEvent]
    cases hp : decode p with
    | command i => exact (receiveWith_of_command hp s).trans (exec_eq i s)
    | invalid why => exact receiveWith_of_invalid hp s
  | reset lost =>
    rw [answersOnEvent, List.append_nil]
    rfl

theorem step_of_port_nil {s : State} (h : s.port = []) : step s = .next s := by
  rw [step, serve, h]

theorem step_of_port_cons {s : State} {ev : HostEvent} {rest : List HostEvent} (h : s.port = ev :: rest) :
    step s = .next ⟨liveOnEvent ev s.live, rest, s.responses ++ answersOnEvent ev s.live⟩ := by
  rw [step, serve, h]
  exact handle_eq ev (s.withPort rest)

theorem liveOnEvent_wf {e : Engine} (he : e.wf) (ev : HostEvent) : (liveOnEvent ev e).wf := by
  cases ev with
  | reset lost => exact initial_wf
  | packet p =>
    rw [liveOnEvent]
    split
    · exact nextLive_wf he _
    · exact he

/-- An event takes the state of a logical message to the state of the message after it (10_state.md R25). -/
theorem liveOnEvent_initial_update (ev : HostEvent) (m : List Byte) :
    liveOnEvent ev (Engine.initial.update m) = Engine.initial.update (messageAfter ev m) := by
  cases ev with
  | reset lost => exact initial_update_nil.symm
  | packet p =>
    rw [liveOnEvent, messageAfter]
    cases decode p with
    | command i => exact nextLive_initial_update i m
    | invalid why => rfl

end Sys2Proof.Machine

section
open Sys2Proof Sys2Proof.Machine

/-- Settles O18: an idle step changes nothing, and every host event keeps the invariants; an UPDATE does so through the
counter's wrap because 512 divides 2^64. -/
theorem everyStepKeepsTheStateWellFormed : Obligations.EveryStepKeepsTheStateWellFormed := by
  intro s t hs h
  cases hp : s.port with
  | nil =>
    rw [step_of_port_nil hp] at h
    cases h
    exact hs
  | cons ev rest =>
    rw [step_of_port_cons hp] at h
    cases h
    exact liveOnEvent_wf hs ev

/-- Settles O50: the state of a logical message is that of a fresh engine after one UPDATE of it, and every host event takes
such a state to the one of the message after the event. -/
theorem everyStepKeepsTheLogicalMessage : Obligations.EveryStepKeepsTheLogicalMessage := by
  intro s t m hm h
  rw [isStateOf_iff] at hm
  rw [isStateOf_iff]
  cases hp : s.port with
  | nil =>
    rw [step_of_port_nil hp] at h
    cases h
    exact hm
  | cons ev rest =>
    rw [step_of_port_cons hp, hm] at h
    cases h
    exact liveOnEvent_initial_update ev m

end

/-! ## 30_encoding.md section A3 and 60_exceptions.md section 3: the invalid packets (R50, R130) and written packets -/

namespace Sys2Proof

theorem headerRsv_eq_zero_iff : ∀ header : Byte, headerRsv header = 0#5 ↔ header.toNat / 8 = 0 := by decide

theorem payloadWithin_eq_false_iff {bound : Option Nat} {n : Nat} :
    payloadWithin bound n = false ↔ ∃ b, bound = some b ∧ b < n := by
  cases bound <;> simp [payloadWithin]

/-- INIT, DIGEST and HEXDIGEST take no payload, on any platform (30_encoding.md R50 case 4). -/
theorem decodeWith_unexpectedPayload (bound : Option Nat) {header : Byte} {data : List Byte}
    (h : (header = 0x01 ∨ header = 0x03 ∨ header = 0x04) ∧ data ≠ []) :
    decodeWith bound (header :: data) = .invalid .unexpectedPayload := by
  obtain ⟨hheader, hdata⟩ := h
  obtain ⟨b, data, rfl⟩ := List.exists_cons_of_ne_nil hdata
  obtain rfl | rfl | rfl := hheader <;> rfl

theorem decodeWith_reservedOperation (bound : Option Nat) {header : Byte} (hrsv : header.toNat / 8 = 0)
    (hop : header.toNat % 8 = 0 ∨ header.toNat % 8 = 7) (data : List Byte) :
    decodeWith bound (header :: data) = .invalid .reservedOperation := by
  have hheader : header = 0x00 ∨ header = 0x07 := by bv_omega
  obtain rfl | rfl := hheader
  · exact decodeWith_00 bound data
  · exact decodeWith_07 bound data

/-- A packet that passes the checks before the bound carries the payload of a command, and only the bound is left to check. -/
theorem decodeWith_eq_checkBound (bound : Option Nat) {header : Byte} {data : List Byte} (hrsv : header.toNat / 8 = 0)
    (hop : ¬ (header.toNat % 8 = 0 ∨ header.toNat % 8 = 7))
    (hbare : ¬ ((header = 0x01 ∨ header = 0x03 ∨ header = 0x04) ∧ data ≠ [])) :
    ∃ i : Instr, i.payload = data ∧ decodeWith bound (header :: data) = checkBound bound (.command i) := by
  have hempty (h : header = 0x01 ∨ header = 0x03 ∨ header = 0x04) : data = [] :=
    not_not.mp fun hdata => hbare ⟨h, hdata⟩
  rcases (header_cases header).resolve_left (not_not.mpr ((headerRsv_eq_zero_iff header).mpr hrsv)) with
    rfl | rfl | rfl | rfl | rfl | rfl | rfl | rfl
  · exact absurd (.inl rfl) hop
  · rw [hempty (.inl rfl)]; exact ⟨.init, rfl, rfl⟩
  · exact ⟨.update data, rfl, decodeWith_02 bound data⟩
  · rw [hempty (.inr (.inl rfl))]; exact ⟨.digest, rfl, rfl⟩
  · rw [hempty (.inr (.inr rfl))]; exact ⟨.hexdigest, rfl, rfl⟩
  · exact ⟨.digestOf data, rfl, decodeWith_05 bound data⟩
  · exact ⟨.hexDigestOf data, rfl, decodeWith_06 bound data⟩
  · exact absurd (.inr rfl) hop

/-- The last check: the bound on the payload (30_encoding.md R50 case 5). -/
theorem checkBound_command (bound : Option Nat) (i : Instr) :
    checkBound bound (.command i) =
      if payloadWithin bound i.payload.length = false then .invalid .payloadTooLong else .command i := by
  rw [checkBound, Instr.wfWith]
  cases payloadWithin bound i.payload.length <;> rfl

end Sys2Proof

section
open Sys2Proof Sys2Proof.Machine

/-- Settles O10: the first four arms are the cases of R50 before the bound, and then only the bound is left to check. -/
theorem decoderChecksInOrder : Obligations.DecoderChecksInOrder := by
  refine ⟨fun _ => rfl, fun bound header data => ?_⟩
  split_ifs with hrsv hop hbare hbound
  · exact decodeWith_reservedBits bound (mt (headerRsv_eq_zero_iff header).mp hrsv) data
  · exact decodeWith_reservedOperation bound (not_not.mp hrsv) hop data
  · exact decodeWith_unexpectedPayload bound hbare
  · obtain ⟨i, rfl, hdecode⟩ := decodeWith_eq_checkBound bound (not_not.mp hrsv) hop hbare
    rw [hdecode, checkBound_command, if_pos hbound]
  · obtain ⟨i, rfl, hdecode⟩ := decodeWith_eq_checkBound bound (not_not.mp hrsv) hop hbare
    rw [hdecode, checkBound_command, if_neg hbound]
    exact ⟨i, rfl, rfl⟩

/-- Settles O9: the five cases are the arms of the decoder's chain of checks, the last arm being a command. -/
theorem packetIsInvalidInExactlyFiveCases : Obligations.PacketIsInvalidInExactlyFiveCases := by
  intro bound p
  obtain ⟨hnil, hcons⟩ := decoderChecksInOrder
  cases p with
  | nil => exact iff_of_true ⟨_, hnil bound⟩ (.inl rfl)
  | cons header data =>
    have horder := hcons bound header data
    split_ifs at horder with hrsv hop hbare hbound
    · exact iff_of_true ⟨_, horder⟩ (.inr ⟨header, data, rfl, .inl hrsv⟩)
    · exact iff_of_true ⟨_, horder⟩ (.inr ⟨header, data, rfl, .inr (by tauto)⟩)
    · exact iff_of_true ⟨_, horder⟩ (.inr ⟨header, data, rfl, .inr (.inr (.inr (.inl hbare)))⟩)
    · have hlong := payloadWithin_eq_false_iff.mp hbound
      exact iff_of_true ⟨_, horder⟩ (.inr ⟨header, data, rfl, .inr (.inr (.inr (.inr hlong)))⟩)
    · obtain ⟨i, hi, -⟩ := horder
      refine iff_of_false (by simp [hi]) ?_
      rintro (h | ⟨_, _, h, hcase⟩) <;> cases h
      rw [← payloadWithin_eq_false_iff] at hcase
      tauto

/-- Settles O11: the encodings hold for every payload; the packets are decoded. -/
theorem tablePacketsDecode : Obligations.TablePacketsDecode := by
  refine ⟨fun data => ⟨encode_init, encode_update data, encode_digest, encode_hexdigest, encode_digestOf data,
    encode_hexDigestOf data⟩, ?packets⟩
  case packets => decide

/-- Settles O12: a line's packet is the encoding of its command, which under the default bound decodes back. -/
theorem lineSpellsItsCommand : Obligations.LineSpellsItsCommand := by
  have hback : ∀ i : Instr, decode (encode i) = .command i := fun i =>
    decodeWith_eq_command_iff.mpr ⟨rfl, rfl⟩
  intro k p
  exact ⟨hback _, hback _, hback _, hback _, hback _, hback _, by decide⟩

end

/-! ## 60_exceptions.md and 70_reset_and_hazards.md: the step, reset and runs of host events -/

namespace Sys2Proof.Machine

/-! ### Sequences of host events -/

/-- The live state after a sequence of host events. -/
def liveOnEvents (events : List HostEvent) (e : Engine) : Engine := events.foldl (fun e ev => liveOnEvent ev e) e

/-- The responses to a sequence of host events. -/
def answersOnEvents : List HostEvent → Engine → List Response
  | [], _ => []
  | ev :: events, e => answersOnEvent ev e ++ answersOnEvents events (liveOnEvent ev e)

/-- Everything a sequence of host events can do (70_reset_and_hazards.md R149). -/
theorem serveAll_eq (events : List HostEvent) (s : State) :
    serveAll events s = .next ⟨liveOnEvents events s.live, s.port, s.responses ++ answersOnEvents events s.live⟩ := by
  induction events generalizing s with
  | nil => simp [serveAll, liveOnEvents, answersOnEvents]
  | cons ev events ih => simp [serveAll, handle_eq, ih, liveOnEvents, answersOnEvents]

/-- A packet gets exactly one response (30_encoding.md R49). -/
theorem exists_answersOnEvent_packet (p : Packet) (e : Engine) : ∃ r, answersOnEvent (.packet p) e = [r] := by
  rw [answersOnEvent]
  cases decode p with
  | command i => exact ⟨_, rfl⟩
  | invalid why => exact ⟨_, rfl⟩

/-- An invalid packet leaves the live state and gets the one response `01` (60_exceptions.md R127). -/
theorem onEvent_of_invalid {ev : HostEvent} (h : eventIsValid ev = false) (e : Engine) :
    liveOnEvent ev e = e ∧ answersOnEvent ev e = [⟨.invalidInput, []⟩] := by
  cases ev with
  | reset lost => cases h
  | packet p =>
    rw [liveOnEvent, answersOnEvent]
    rw [eventIsValid] at h
    cases hp : decode p with
    | command i => rw [hp] at h; cases h
    | invalid why => exact ⟨rfl, rfl⟩

/-- Every response to an event that is not an invalid packet has the status OK. -/
theorem filter_ok_answersOnEvent {ev : HostEvent} (h : eventIsValid ev = true) (e : Engine) :
    (answersOnEvent ev e).filter (fun r => r.status = .ok) = answersOnEvent ev e := by
  cases ev with
  | reset lost => rfl
  | packet p =>
    rw [answersOnEvent]
    rw [eventIsValid] at h
    cases hp : decode p with
    | command i => rfl
    | invalid why => rw [hp] at h; cases h

/-- A run with its invalid packets removed: the same live state, and the responses with status OK (60_exceptions.md R132). -/
theorem onEvents_filter_valid (events : List HostEvent) (e : Engine) :
    liveOnEvents (events.filter eventIsValid) e = liveOnEvents events e ∧
    answersOnEvents (events.filter eventIsValid) e =
      (answersOnEvents events e).filter (fun r => r.status = .ok) := by
  induction events generalizing e with
  | nil => exact ⟨rfl, rfl⟩
  | cons ev events ih =>
    obtain ⟨hlive, hanswers⟩ := ih (liveOnEvent ev e)
    have hlater : liveOnEvents (ev :: events) e = liveOnEvents events (liveOnEvent ev e) := rfl
    rw [hlater, answersOnEvents, List.filter_append]
    cases hv : eventIsValid ev with
    | true =>
      rw [List.filter_cons_of_pos hv, filter_ok_answersOnEvent hv, answersOnEvents, hanswers]
      exact ⟨hlive, rfl⟩
    | false =>
      obtain ⟨hsame, hanswer⟩ := onEvent_of_invalid hv e
      rw [hsame] at hlive hanswers
      rw [List.filter_cons_of_neg (by simp [hv]), hsame, hanswer]
      exact ⟨hlive, hanswers⟩

/-! ### The framing of packets on the byte stream (30_encoding.md R45) -/

/-- Bytes without the mark only add to what has arrived of the packet under way. -/
theorem frame_openBeats (got bytes : List Byte) (beats : List Beat) :
    frame got (openBeats bytes ++ beats) = frame (got ++ bytes) beats := by
  induction bytes generalizing got with
  | nil => rw [List.append_nil]; rfl
  | cons b bytes ih => rw [List.append_cons, ← ih]; rfl

/-- A whole packet on the stream is framed as that packet, and the next one starts after it. -/
theorem frame_beatsOf {p : Packet} (hp : p ≠ []) (beats : List Beat) :
    frame [] (beatsOf p ++ beats) = (p :: (frame [] beats).1, (frame [] beats).2) := by
  have hbeats : beatsOf p = openBeats p.dropLast ++ [⟨p.getLast hp, true⟩] := by
    rw [beatsOf, List.getLast?_eq_getLast_of_ne_nil hp]
  rw [hbeats, List.append_assoc, frame_openBeats, List.singleton_append, frame, if_pos rfl, List.nil_append,
    List.dropLast_append_getLast hp]

theorem frame_packets {packets : List Packet} (h : ∀ p ∈ packets, p ≠ []) (arriving : List Byte) :
    frame [] (packets.flatMap beatsOf ++ openBeats arriving) = (packets, arriving) := by
  induction packets with
  | nil =>
    have hopen := frame_openBeats [] arriving []
    rwa [List.append_nil] at hopen
  | cons p packets ih =>
    rw [List.flatMap_cons, List.append_assoc, frame_beatsOf (h p List.mem_cons_self),
      ih fun q hq => h q (List.mem_cons_of_mem p hq)]

end Sys2Proof.Machine

section
open Sys2Proof Sys2Proof.Machine

/-- Settles O13: the step takes the packet off the port and receives it. -/
theorem stepRunsTheDecodedCommand : Obligations.StepRunsTheDecodedCommand := by
  intro s p rest hport
  have hstep : step s = receiveWith Config.maxPayloadBytes p (s.withPort rest) := by
    rw [step, serve, hport]
    rfl
  refine ⟨fun i hi => ?command, fun why hwhy => ⟨⟨.invalidInput, []⟩, rfl, ?invalid⟩⟩
  case command => exact hstep.trans (receiveWith_of_command hi _)
  case invalid => exact hstep.trans (receiveWith_of_invalid hwhy _)

/-- Settles O15: a reset event stores the initial live state and adds no response, and INIT stores the same. -/
theorem resetEventGivesTheInitialState : Obligations.ResetEventGivesTheInitialState := by
  intro s lost rest hport
  refine ⟨?_, _, exec_eq .init s, rfl⟩
  rw [step_of_port_cons hport, answersOnEvent, List.append_nil]
  rfl

/-- Settles O16: the fields of the reset state. -/
theorem resetState : Obligations.ResetState := by
  exact ⟨rfl, rfl, rfl, rfl, rfl, rfl⟩

/-- Settles O17: the reset state's live state is the initial one. -/
theorem resetIsWellFormed : Obligations.ResetIsWellFormed := by
  exact initial_wf

/-- Settles O51: a fresh engine is in the state of the empty message. -/
theorem resetHoldsTheEmptyMessage : Obligations.ResetHoldsTheEmptyMessage := by
  exact (isStateOf_iff Engine.initial []).mpr initial_update_nil.symm

/-- Settles O19: a step takes the head of the port, and a packet is answered once whether it spells a command or not. -/
theorem everyStepAnswers : Obligations.EveryStepAnswers := by
  intro s
  cases hport : s.port with
  | nil => exact ⟨s, step_of_port_nil hport, hport, rfl⟩
  | cons ev rest =>
    refine ⟨_, step_of_port_cons hport, rfl, ?_⟩
    cases ev with
    | packet p =>
      obtain ⟨r, hr⟩ := exists_answersOnEvent_packet p s.live
      exact ⟨r, congrArg (s.responses ++ ·) hr⟩
    | reset lost => exact List.append_nil _

/-- Settles O20: an invalid packet leaves the live state, so the others run from the same states with and without it. -/
theorem invalidPacketsLeaveNoTrace : Obligations.InvalidPacketsLeaveNoTrace := by
  intro events s
  obtain ⟨hlive, hanswers⟩ := onEvents_filter_valid events s.live
  refine ⟨_, _, _, serveAll_eq events s, serveAll_eq _ s, hlive.symm, rfl, ?_⟩
  rw [hanswers]

/-- Settles O21: each marked byte ends its packet, and the unmarked bytes after the last mark are no packet. -/
theorem onlyWholePacketsReachTheEngine : Obligations.OnlyWholePacketsReachTheEngine := by
  intro packets arriving hne
  have hframe := frame_packets hne arriving
  refine ⟨hframe, fun s => ?_⟩
  rw [serveBeats, hframe]

end

/-! ## 42_compression.md: addition (R80), amounts beyond R81 and R82, Ch and Maj (R88, R89), rounds and
feed-forward (R92 to R95) -/

namespace Sys2Proof.Machine

theorem toNat_add32 (x y : Word) : (add32 x y).toNat = (x.toNat + y.toNat) % 2 ^ 32 := BitVec.toNat_add x y

/-! ### Amounts of 0 and of 32 and more -/

theorem shr_of_ge (x : Word) {n : Nat} (hn : 32 ≤ n) : shr x n = 0 := BitVec.ushiftRight_eq_zero hn

/-- The right part of the rotation leaves no bit, and `32 - n` stops at 0, so that the left part is x itself. -/
theorem rotr_of_ge (x : Word) {n : Nat} (hn : 32 ≤ n) : rotr x n = x := by
  rw [rotr, BitVec.ushiftRight_eq_zero hn, Nat.sub_eq_zero_of_le hn, BitVec.shiftLeft_zero, BitVec.zero_or]

theorem rotr_zero (x : Word) : rotr x 0 = x := by
  rw [rotr, BitVec.ushiftRight_zero, BitVec.shiftLeft_eq_zero (by decide), BitVec.or_zero]

/-! ### Ch and Maj, bit by bit -/

theorem getLsbD_ch (x y z : Word) {i : Nat} (hi : i < 32) :
    (ch x y z).getLsbD i = if x.getLsbD i then y.getLsbD i else z.getLsbD i := by
  rw [ch, BitVec.getLsbD_xor, BitVec.getLsbD_and, BitVec.getLsbD_and, BitVec.getLsbD_not]
  cases x.getLsbD i <;> simp [hi]

/-- The XOR of the three pairwise ANDs of three bits is the majority of the three. -/
theorem xor_and_pairs_eq_majority : ∀ a b c : Bool,
    ((a && b) ^^ (a && c) ^^ (b && c)) = decide (2 ≤ a.toNat + b.toNat + c.toNat) := by decide

theorem getLsbD_maj (x y z : Word) (i : Nat) :
    (maj x y z).getLsbD i = decide (2 ≤ (x.getLsbD i).toNat + (y.getLsbD i).toNat + (z.getLsbD i).toNat) := by
  rw [maj, BitVec.getLsbD_xor, BitVec.getLsbD_xor, BitVec.getLsbD_and, BitVec.getLsbD_and, BitVec.getLsbD_and,
    xor_and_pairs_eq_majority]

theorem maj_swap_left (x y z : Word) : maj x y z = maj y x z := by
  rw [maj, maj, BitVec.and_comm x y, BitVec.xor_assoc, BitVec.xor_comm (x &&& z), ← BitVec.xor_assoc]

theorem maj_swap_right (x y z : Word) : maj x y z = maj x z y := by
  rw [maj, maj, BitVec.xor_comm (x &&& y), BitVec.and_comm y z]

theorem maj_self (y z : Word) : maj y y z = y := by
  rw [maj, BitVec.and_self, BitVec.xor_assoc, BitVec.xor_self, BitVec.xor_zero]

theorem ch_ones (y z : Word) : ch 0xffffffff y z = y := by
  have hones : (0xffffffff : Word) = BitVec.allOnes 32 := rfl
  rw [ch, hones, BitVec.allOnes_and, BitVec.not_allOnes, BitVec.zero_and, BitVec.xor_zero]

theorem ch_zero (y z : Word) : ch 0 y z = z := by
  have hnot : ~~~(0 : Word) = BitVec.allOnes 32 := rfl
  rw [ch, hnot, BitVec.allOnes_and, BitVec.ofNat_eq_ofNat, BitVec.zero_and, BitVec.zero_xor]

/-! ### The rounds -/

/-- The first t + 1 rounds are the first t and then round t, with K[t] and W[t] (R93). -/
theorem runRounds_succ {w : List Word} (hw : w.length = 64) (r : WorkRegs) (t : Fin 64) :
    runRounds (t + 1) w r = roundStep (runRounds t w r) Config.K[t] (w.getD t 0) := by
  have hzip : t.val < (Config.K.toList.zip w).length := by simp [hw]
  have hround : (Config.K.toList.zip w)[t.val] = (Config.K[t], w.getD t 0) := by
    rw [List.getElem_zip, Vector.getElem_toList, List.getD_eq_getElem _ _ (hw.symm ▸ t.isLt)]
    rfl
  rw [runRounds, List.take_add_one, List.getElem?_eq_getElem hzip, hround, List.foldl_append]
  rfl

end Sys2Proof.Machine

section
open Sys2Proof Sys2Proof.Machine

/-- Settles O1: add32 is the addition of 32-bit words, which is associative and commutative; the examples are evaluated. -/
theorem additionIsModulo32Bits : Obligations.AdditionIsModulo32Bits := by
  refine ⟨toNat_add32, fun x y z => ⟨?sum, BitVec.add_assoc x y z, BitVec.add_comm x y⟩, ?examples⟩
  case examples => decide
  case sum => rw [toNat_add32, toNat_add32, Nat.mod_add_mod]

/-- Settles O49: the shift that is out of range gives 0 and the other part of the rotation shifts by nothing. -/
theorem rotateAndShiftBeyondTheirRange : Obligations.RotateAndShiftBeyondTheirRange := by
  refine fun x n => ⟨?rotation, shr_of_ge x⟩
  case rotation =>
    rintro (rfl | hn)
    · exact rotr_zero x
    · exact rotr_of_ge x hn

/-- Settles O4: each bit of Ch and Maj is the choice and the majority of the bits there; the examples are evaluated. -/
theorem chooseAndMajorityBitByBit : Obligations.ChooseAndMajorityBitByBit := by
  refine ⟨fun x y z i hi => ⟨getLsbD_ch x y z hi, getLsbD_maj x y z i⟩,
    fun x y z => ⟨maj_swap_left x y z, maj_swap_right x y z⟩,
    fun y z => ⟨ch_ones y z, ch_zero y z, maj_self y z⟩, ?examples⟩
  case examples => decide

/-- Settles O6: the rounds are a fold over the pairs K[t], W[t], of which round t takes the t-th, and the eight sums are the
components of the feed-forward. -/
theorem roundsAndFeedForward : Obligations.RoundsAndFeedForward := by
  refine ⟨fun _ _ _ => rfl, fun hin b _ => ⟨rfl, fun t => ?round, rfl, rfl, rfl, rfl, rfl, rfl, rfl, rfl⟩⟩
  case round => exact runRounds_succ (length_schedule b) (loadRegs hin) t

/-- Settles O7: both blocks are evaluated, each through its 64 rounds. -/
theorem compressWorkedExamples : Obligations.CompressWorkedExamples := by
  constructor <;> decide +kernel

end

/-! ## 40_instruction_set.md and 41_accumulator.md: responses (R49), frames, INIT (R65), UPDATE (R66, R67) and the live state
after commands (R70) -/

namespace Sys2Proof.Machine

/-- The length of a command's result: nothing, 32 bytes or their 64 hexadecimal characters (30_encoding.md R49). -/
theorem length_resultOf (i : Instr) (e : Engine) :
    (resultOf i e).length = match i with
      | .init => 0
      | .update _ => 0
      | .digest => 32
      | .hexdigest => 64
      | .digestOf _ => 32
      | .hexDigestOf _ => 64 := by
  cases i <;> simp [resultOf, length_hexEnc]

/-- Everything UPDATE does, in closed form (41_accumulator.md R66). -/
theorem exec_update_eq (data : List Byte) (s : State) :
    exec (.update data) s = .next ((s.withLive ⟨(blocksOf (s.live.mb ++ data)).foldl compress s.live.h,
      tailOf (s.live.mb ++ data), countBits s.live.bitlen data.length⟩).respond ⟨.ok, []⟩) := by
  rw [exec_eq, nextLive, update_eq]
  rfl

/-- UPDATE computes H and MB without the counter, so the counter may be added separately (R67). -/
theorem update_withBitlen (e : Engine) (b : LongWord) (data : List Byte) :
    ({ e with bitlen := b } : Engine).update data = { e.update data with bitlen := countBits b data.length } := by
  simp only [update_eq]

/-! ### The byte-serial UPDATE on the registers (R67) -/

/-- After a byte is written at index i, the first i + 1 bytes are the first i and then it. -/
theorem take_succ_set {l : List Byte} {i : Nat} (hi : i < l.length) (b : Byte) :
    (l.set i b).take (i + 1) = l.take i ++ [b] := by
  rw [List.take_add_one, List.take_set_of_le (Nat.le_refl i), List.getElem?_set_self hi]
  rfl

theorem length_toEngine_mb (st : Storage) : st.toEngine.mb.length = st.buflen.toNat := by
  rw [Storage.toEngine, List.length_take_of_le (by rw [Vector.length_toList]; exact st.buflen.isLt.le)]

theorem length_toEngine_mb_lt (st : Storage) : st.toEngine.mb.length < 64 := by
  rw [length_toEngine_mb]
  exact st.buflen.isLt

/-- The buffer after the byte is written at BUFLEN: the pending bytes and then it. -/
theorem take_memWrite_buflen (st : Storage) (b : Byte) :
    (st.memWrite st.buflen b).buf.toList.take (st.buflen.toNat + 1) = st.toEngine.mb ++ [b] := by
  rw [Storage.memWrite, Vector.toList_set, take_succ_set (by rw [Vector.length_toList]; exact st.buflen.isLt)]
  rfl

/-- One byte taken by the registers is an UPDATE of one byte, but for the counter, which is added at the end (R67). -/
theorem toEngine_takeByte (st : Storage) (b : Byte) :
    (st.takeByte b).toEngine = { st.toEngine.update [b] with bitlen := st.bitlen } := by
  have hbuf := take_memWrite_buflen st b
  have hlen : (st.toEngine.mb ++ [b]).length = st.buflen.toNat + 1 := by
    rw [List.length_append, length_toEngine_mb, List.length_singleton]
  rw [update_eq, Storage.takeByte]
  split
  · next hfull =>
    have h63 : st.buflen.toNat = 63 := by rw [hfull]; rfl
    rw [h63] at hlen hbuf
    rw [List.take_of_length_le (by simp)] at hbuf
    rw [blocksOf_long hlen.ge, tailOf_long hlen.ge, List.take_of_length_le hlen.le, List.drop_eq_nil_of_le hlen.le,
      ← hbuf]
    rfl
  · next hfull =>
    have hlt : st.buflen.toNat + 1 < 64 := by bv_omega
    have hnext : (st.buflen + 1#6).toNat = st.buflen.toNat + 1 := by bv_omega
    rw [blocksOf_short (hlen ▸ hlt), tailOf_short (hlen ▸ hlt), ← hbuf, ← hnext]
    rfl

theorem toEngine_foldl_takeByte (data : List Byte) (st : Storage) :
    (data.foldl Storage.takeByte st).toEngine = { st.toEngine.update data with bitlen := st.bitlen } := by
  induction data generalizing st with
  | nil =>
    rw [update_nil (length_toEngine_mb_lt st)]
    rfl
  | cons b data ih =>
    have hbitlen : (st.takeByte b).bitlen = st.bitlen := congrArg Engine.bitlen (toEngine_takeByte st b)
    rw [List.foldl_cons, ih, toEngine_takeByte, update_withBitlen, update_update, hbitlen, List.singleton_append]

/-! ### Blocks of known length -/

theorem blocksOf_of_length {s : List Byte} (h : s.length = 64) : blocksOf s = [s] := by
  rw [blocksOf_long h.ge, List.take_of_length_le h.le, List.drop_eq_nil_of_le h.le, blocksOf_short (by decide)]

theorem tailOf_of_length {s : List Byte} (h : s.length = 64) : tailOf s = [] :=
  List.eq_nil_of_length_eq_zero (by rw [length_tailOf, h])

theorem blocksOf_block_append {b : List Byte} (hb : b.length = 64) (s : List Byte) :
    blocksOf (b ++ s) = b :: blocksOf s := by
  rw [blocksOf_long (by simp [hb]), List.take_left' hb, List.drop_left' hb]

end Sys2Proof.Machine

section
open Sys2Proof Sys2Proof.Machine

/-- Settles O22: every command completes with its result, whose length its operation fixes. -/
theorem everyCommandCompletesWithItsResponse : Obligations.EveryCommandCompletesWithItsResponse := by
  intro i s
  exact ⟨_, exec_eq i s, rfl, resultOf i s.live, observation_respond _ _, length_resultOf i s.live⟩

/-- Settles O23: a command stores a live state and adds a response, the live state is the one it found if it only reads, and
fewer than 64 bytes are no block. -/
theorem commandFrame : Obligations.CommandFrame := by
  refine ⟨fun i s t h => ?port, fun i s t hi h => ?reads, fun data s t hlen h => ?noBlock⟩ <;>
    (rw [exec_eq] at h; cases h)
  case port => exact ⟨rfl, _, rfl⟩
  case reads =>
    rw [nextLive_of_readsOnly hi]
    exact ⟨rfl, rfl, rfl⟩
  case noBlock =>
    rw [← List.length_append] at hlen
    rw [respond_live, withLive_live, nextLive, update_eq, blocksOf_short hlen, List.foldl_nil]

/-- Settles O24: INIT stores the initial live state, whatever it found. -/
theorem initGivesTheInitialState : Obligations.InitGivesTheInitialState := by
  intro s
  exact exec_eq .init s

/-- Settles O25: the closed form of the loop, with the blocks and the tail of S written out. -/
theorem updateFoldsEveryWholeBlock : Obligations.UpdateFoldsEveryWholeBlock := by
  intro data s
  rw [← List.length_append]
  exact ⟨_, exec_update_eq data s, rfl, rfl, length_tailOf _, BitVec.toNat_ofNat _ _, rfl, rfl⟩

/-- Settles O28: each byte taken is an UPDATE of one byte, and UPDATEs one after the other are one UPDATE. -/
theorem byteSerialUpdateRefinesUpdate : Obligations.ByteSerialUpdateRefinesUpdate := by
  intro st data
  calc (st.update data).toEngine
      = { (data.foldl Storage.takeByte st).toEngine with bitlen := countBits st.bitlen data.length } := rfl
    _ = { st.toEngine.update data with bitlen := countBits st.bitlen data.length } := by rw [toEngine_foldl_takeByte]
    _ = st.toEngine.update data := by rw [← update_withBitlen]; rfl

/-- Settles O29: BUFLEN = 0 hides whatever BUF holds, and BUFLEN has six bits. -/
theorem initOnTheRegisters : Obligations.InitOnTheRegisters := by
  exact ⟨fun _ => ⟨rfl, rfl⟩, fun st => ⟨length_toEngine_mb st, length_toEngine_mb_lt st⟩, _, exec_eq .init _, rfl⟩

/-- Settles O30: the commands lead to the state of a fresh engine after one UPDATE of their logical message. -/
theorem liveStateIsTheLogicalMessage : Obligations.LiveStateIsTheLogicalMessage := by
  intro s cs hs
  refine ⟨_, execAll_eq cs s, ?_⟩
  obtain ⟨hh, hmb, hbitlen⟩ := (isStateOf_iff _ _).mpr (liveAfter_initial cs)
  rw [hs]
  exact ⟨hh, hmb, hbitlen ▸ BitVec.toNat_ofNat _ _⟩

/-- Settles O32: 63 bytes and one are one block, and the counter, 8 below 2^64, wraps to 0. -/
theorem counterWraps : Obligations.CounterWraps := by
  intro x s hs
  have hblock : (List.replicate 63 0x61 ++ [0x61] : List Byte) = List.replicate 64 0x61 := rfl
  have hwrap : countBits 0xfffffffffffffff8 1 = 0 := by decide
  refine ⟨_, exec_update_eq [0x61] s, ?_⟩
  rw [hs, hblock, blocksOf_of_length List.length_replicate, tailOf_of_length List.length_replicate, List.length_singleton,
    hwrap]
  rfl

end

/-! ## 43_finalizer.md and 44_oneshot.md: the padded tail (R52, R101), DIGEST (R102, R103, R110), HEXENC (R107) and the
one-shot commands (R115 to R119) -/

namespace Sys2Proof.Machine

/-! ### The padded tail and its one or two blocks -/

theorem paddedTail_eq {m : List Byte} (hm : m.length ≤ 63) (n : LongWord) :
    paddedTail m n = m ++ [0x80] ++
      List.replicate (if m.length ≤ 55 then 55 - m.length else 119 - m.length) 0x00 ++ be64 n := by
  rw [paddedTail, pad, zeroFill_eq hm, List.append_assoc, List.append_assoc, List.append_assoc]

/-- At most 55 pending bytes leave room for the marker and the counter in their own block. -/
theorem finalWords_of_le (hin : Vector Word 8) {m : List Byte} (hm : m.length ≤ 55) (n : LongWord) :
    finalWords hin m n = compress hin (m ++ [0x80] ++ List.replicate (55 - m.length) 0x00 ++ be64 n) := by
  have hlayout := paddedTail_eq (by omega : m.length ≤ 63) n
  have hlen := length_paddedTail m n (by omega)
  rw [if_pos hm] at hlayout hlen
  rw [finalWords_eq, blocksOf_of_length hlen, hlayout]
  rfl

/-- From 56 pending bytes on, the marker still goes to their block and the counter to the next (43_finalizer.md R101). -/
theorem finalWords_of_gt (hin : Vector Word 8) {m : List Byte} (h55 : ¬ m.length ≤ 55) (hm : m.length ≤ 63)
    (n : LongWord) :
    finalWords hin m n = compress (compress hin (m ++ [0x80] ++ List.replicate (63 - m.length) 0x00))
      (List.replicate 56 0x00 ++ be64 n) := by
  have hzeros : 119 - m.length = 63 - m.length + 56 := by omega
  have hfirst : (m ++ [0x80] ++ List.replicate (63 - m.length) 0x00 : List Byte).length = 64 := by simp; omega
  have hlayout : paddedTail m n =
      (m ++ [0x80] ++ List.replicate (63 - m.length) 0x00) ++ (List.replicate 56 0x00 ++ be64 n) := by
    rw [paddedTail_eq hm n, if_neg h55, hzeros, List.replicate_add]
    simp only [List.append_assoc]
  rw [finalWords_eq, hlayout, blocksOf_block_append hfirst, blocksOf_of_length (by simp)]
  rfl

/-! ### HEXENC -/

/-- The digit of a nibble is the character of the alphabet at its value (43_finalizer.md R107). -/
theorem some_hexDigit : ∀ v : BitVec 4, some (hexDigit v) = hexAlphabet[v.toNat]? := by decide

/-- The two digits of a byte, most significant nibble first. -/
theorem some_hexDigit_nibbles (b : Byte) :
    some (hexDigit (b.extractLsb' 4 4)) = hexAlphabet[b.toNat / 16]? ∧
    some (hexDigit (b.extractLsb' 0 4)) = hexAlphabet[b.toNat % 16]? := by
  have hhigh : (b.extractLsb' 4 4).toNat = b.toNat / 16 := by
    rw [BitVec.extractLsb'_toNat, Nat.shiftRight_eq_div_pow]
    omega
  have hlow : (b.extractLsb' 0 4).toNat = b.toNat % 16 := BitVec.extractLsb'_toNat ..
  rw [← hhigh, ← hlow]
  exact ⟨some_hexDigit _, some_hexDigit _⟩

theorem getElem?_hexEnc {s : List Byte} {j : Nat} (hj : j < s.length) :
    (hexEnc s)[2 * j]? = hexAlphabet[(s.getD j 0).toNat / 16]? ∧
    (hexEnc s)[2 * j + 1]? = hexAlphabet[(s.getD j 0).toNat % 16]? := by
  induction s generalizing j with
  | nil => exact absurd hj (Nat.not_lt_zero j)
  | cons b s ih =>
    cases j with
    | zero => exact some_hexDigit_nibbles b
    | succ j => exact ih (Nat.lt_of_succ_lt_succ hj)

theorem mem_hexAlphabet_of_mem_hexEnc {s : List Byte} {c : Byte} (hc : c ∈ hexEnc s) : c ∈ hexAlphabet := by
  obtain ⟨b, -, hb⟩ := List.mem_flatMap.mp hc
  obtain ⟨hhigh, hlow⟩ := some_hexDigit_nibbles b
  obtain rfl | rfl : c = hexDigit (b.extractLsb' 4 4) ∨ c = hexDigit (b.extractLsb' 0 4) := by simpa using hb
  · exact List.mem_of_getElem? hhigh.symm
  · exact List.mem_of_getElem? hlow.symm

/-! ### Sequences of reading commands and of UPDATEs -/

theorem liveAfter_of_readsOnly {cs : List Instr} (h : ∀ i ∈ cs, readsOnly i = true) (e : Engine) :
    liveAfter cs e = e := by
  induction cs with
  | nil => rfl
  | cons i cs ih =>
    have hi := nextLive_of_readsOnly (h i List.mem_cons_self) e
    calc liveAfter (i :: cs) e
        = liveAfter cs (nextLive i e) := rfl
      _ = e := by rw [hi, ih fun j hj => h j (List.mem_cons_of_mem i hj)]

theorem length_answersTo (cs : List Instr) (e : Engine) : (answersTo cs e).length = cs.length := by
  induction cs generalizing e with
  | nil => rfl
  | cons i cs ih => exact congrArg (· + 1) (ih (nextLive i e))

theorem answersTo_updates (pieces : List (List Byte)) (e : Engine) :
    answersTo (pieces.map .update) e = List.replicate pieces.length ⟨.ok, []⟩ := by
  induction pieces generalizing e with
  | nil => rfl
  | cons p ps ih => exact congrArg (⟨.ok, []⟩ :: ·) (ih (e.update p))

/-! ### Digests of whole messages -/

theorem countBits_initial (n : Nat) : countBits 0 n = BitVec.ofNat 64 (8 * n) := by
  rw [countBits, BitVec.ofNat_eq_ofNat, BitVec.toNat_zero, Nat.zero_add]

/-- The one-shot result in closed form (44_oneshot.md R115). -/
theorem digestOfPayload_eq (data : List Byte) :
    digestOfPayload data = finalize ((blocksOf data).foldl compress Config.IV) (tailOf data)
      (BitVec.ofNat 64 (8 * data.length)) := by
  rw [← countBits_initial, digestOfPayload, oneShotContext, update_eq]
  rfl

/-- The one-shot result as one fold over the blocks of the payload and then of its padded tail. -/
theorem digestOfPayload_eq_serialize (data : List Byte) :
    digestOfPayload data = serialize ((blocksOf data ++
      blocksOf (paddedTail (tailOf data) (BitVec.ofNat 64 (8 * data.length)))).foldl compress Config.IV) := by
  rw [digestOfPayload_eq, finalize, finalWords_eq, List.foldl_append]

/-- The blocks of a payload and of its padded tail are the blocks of the padded payload (43_finalizer.md R110). -/
theorem digestOfPayload_eq_hash (data : List Byte) :
    digestOfPayload data = serialize ((blocksOf (data ++ pad (data.length % 64)
      (BitVec.ofNat 64 (8 * data.length)))).foldl compress Config.IV) := by
  rw [digestOfPayload_eq_serialize, blocksOf_append, paddedTail, length_tailOf]

/-! ### The blocks each command compresses (70_reset_and_hazards.md R155) -/

theorem digest_eq_serialize (e : Engine) :
    e.digest = serialize ((blocksOf (paddedTail e.mb e.bitlen)).foldl compress e.h) := by
  rw [Engine.digest, finalize, finalWords_eq]

theorem length_blocksOf_paddedTail {m : List Byte} (hm : m.length ≤ 63) (n : LongWord) :
    (blocksOf (paddedTail m n)).length = if m.length ≤ 55 then 1 else 2 := by
  rw [length_blocksOf, length_paddedTail m n hm]
  split <;> rfl

/-- The blocks of a payload, and one or two for its padded tail. -/
theorem length_blocksOf_payload (data : List Byte) (n : LongWord) :
    (blocksOf data ++ blocksOf (paddedTail (tailOf data) n)).length =
      data.length / 64 + (if data.length % 64 ≤ 55 then 1 else 2) := by
  rw [List.length_append, length_blocksOf, length_blocksOf_paddedTail (Nat.le_of_lt_succ (length_tailOf_lt data)),
    length_tailOf]

theorem length_of_mem_compressedBlocks {i : Instr} {e : Engine} {b : List Byte} (hb : b ∈ compressedBlocks i e) :
    b.length = 64 := by
  cases i with
  | init => cases hb
  | update _ | digest | hexdigest => exact length_of_mem_blocksOf hb
  | digestOf _ | hexDigestOf _ => exact (List.mem_append.mp hb).elim length_of_mem_blocksOf length_of_mem_blocksOf

/-! ### Several engines (60_exceptions.md R137) -/

/-- A step of engine k stores there what the engine alone would hold after the step. -/
theorem stepEngine_of_step {n : Nat} {sys : System n} {k : Fin n} {t : State} (h : step sys[k] = .next t) :
    stepEngine sys k = .next (sys.set k t) := by
  rw [stepEngine, h]

/-- Another engine's step leaves engine i as it is. -/
theorem getElem_set_of_ne {n : Nat} (sys : System n) {i j : Fin n} (h : i ≠ j) (t : State) : (sys.set j t)[i] = sys[i] :=
  Vector.getElem_set_ne j.isLt i.isLt fun hij => h (Fin.ext hij.symm)

end Sys2Proof.Machine

section
open Sys2Proof Sys2Proof.Machine

/-- Settles O34: the zero fill is 55 - L up to 55 and 119 - L from 56 on. -/
theorem paddedTailLayout : Obligations.PaddedTailLayout := by
  intro m n hm
  exact ⟨length_paddedTail m n hm, paddedTail_eq hm n⟩

/-- Settles O36: the padded tail is one block, or two that part after the zeros of the first. -/
theorem digestCompressesThePaddedTail : Obligations.DigestCompressesThePaddedTail := by
  intro s hm m n f
  have hwords : finalWords s.live.h m s.live.bitlen = f := by
    by_cases h55 : m.length ≤ 55
    · exact (finalWords_of_le _ h55 _).trans (if_pos h55).symm
    · exact (finalWords_of_gt _ h55 hm _).trans (if_neg h55).symm
  rw [← hwords]
  exact exec_eq .digest s

/-- Settles O37: two characters stand for each byte, each the digit of a nibble; the alphabet and the example are evaluated. -/
theorem hexEncodingOfEveryByte : Obligations.HexEncodingOfEveryByte := by
  exact ⟨fun s => ⟨length_hexEnc s, fun _ hj => getElem?_hexEnc hj⟩, by decide, by decide⟩

/-- Settles O38: the result of HEXDIGEST is HEXENC of the digest, and neither command stores another live state. -/
theorem hexdigestSpellsTheDigest : Obligations.HexdigestSpellsTheDigest := by
  intro s
  have hlen := length_digest s.live
  refine ⟨s.live.digest, hexEnc s.live.digest, exec_eq .digest s, exec_eq .hexdigest s, hlen, ?_,
    fun _ => mem_hexAlphabet_of_mem_hexEnc, fun j hj => getElem?_hexEnc (hlen ▸ hj)⟩
  rw [length_hexEnc, hlen]

/-- Settles O40: reading commands leave the live state, so both digests are of the same one. -/
theorem repeatedDigestsAgree : Obligations.RepeatedDigestsAgree := by
  intro s cs hreads
  have hlive : liveAfter (.digest :: cs) s.live = s.live := liveAfter_of_readsOnly hreads s.live
  refine ⟨s.live.digest, answersTo cs s.live, length_answersTo cs s.live, _, execAll_eq _ s, ?_, ?_⟩
  · rw [liveAfter_append, hlive]
    rfl
  · rw [answersTo_append, hlive, ← List.append_assoc, List.append_assoc _ [_]]
    rfl

/-- Settles O42: the commands lead to the state of a fresh engine after one UPDATE of their logical message, whose digest is
the one-shot result of that message. -/
theorem digestHashesTheLogicalMessage : Obligations.DigestHashesTheLogicalMessage := by
  intro s cs hs m
  have hlive : liveAfter cs s.live = oneShotContext m := by
    rw [hs]
    exact liveAfter_initial cs
  refine ⟨_, execAll_eq _ s, ?_⟩
  rw [answersTo_append, hlive, ← List.append_assoc, ← digestOfPayload_eq_hash]
  exact List.getLast?_concat

/-- Settles O43: the scratch context holds the payload's folded blocks, its rest and its bit count. -/
theorem oneShotClosedForm : Obligations.OneShotClosedForm := by
  intro data s d
  have hd : digestOfPayload data = d := digestOfPayload_eq data
  rw [← hd]
  exact ⟨exec_eq (.digestOf data) s, exec_eq (.hexDigestOf data) s⟩

/-- Settles O45: the one-shot commands are reading commands, so the commands that follow run from the same live state. -/
theorem oneShotsDoNotDisturbTheStream : Obligations.OneShotsDoNotDisturbTheStream := by
  intro i data s cs hi
  have hreads : readsOnly i = true := by
    obtain rfl | rfl := hi <;> rfl
  exact ⟨⟨_, exec_eq i s, nextLive_of_readsOnly hreads s.live⟩,
    _, _, _, _, execAll_cons_of_readsOnly hreads cs s, execAll_eq cs s, rfl, rfl, rfl⟩

/-- Settles O46: after INIT the UPDATEs of the pieces are one of the whole message, on a fresh engine: the scratch context of
the one-shot commands. -/
theorem oneShotEqualsStreaming : Obligations.OneShotEqualsStreaming := by
  intro s pieces
  have hlive : liveAfter (.init :: pieces.map .update) s.live = oneShotContext pieces.flatten :=
    liveAfter_updates_update pieces Engine.initial []
  have hupdates : answersTo (.init :: pieces.map .update) s.live = List.replicate (1 + pieces.length) ⟨.ok, []⟩ := by
    rw [answersTo, answersTo_updates, Nat.add_comm]
    rfl
  refine ⟨digestOfPayload pieces.flatten, length_digestOfPayload _, _, execAll_eq _ s, ?_⟩
  rw [answersTo_append, hlive, hupdates, ← List.append_assoc]
  rfl

/-- Settles O47: UPDATE folds the blocks of MB and the payload, DIGEST those of the padded tail, and a one-shot command the
former of its payload and then the latter. -/
theorem compressionsOfEachCommand : Obligations.CompressionsOfEachCommand := by
  refine ⟨fun i e b => length_of_mem_compressedBlocks, fun s => ⟨rfl, _, exec_eq .init s, rfl⟩,
    fun data s => ⟨?updateCount, _, exec_update_eq data s, rfl⟩, fun s hm => ?digests, fun data s => ?oneShots⟩
  case updateCount => rw [compressedBlocks, length_blocksOf, List.length_append]
  case digests =>
    have hcount := length_blocksOf_paddedTail hm s.live.bitlen
    simp only [compressedBlocks, ← digest_eq_serialize]
    exact ⟨hcount, hcount, exec_eq .digest s, exec_eq .hexdigest s⟩
  case oneShots =>
    have hcount := length_blocksOf_payload data (BitVec.ofNat 64 (8 * data.length))
    simp only [compressedBlocks, countBits_initial, ← digestOfPayload_eq_serialize]
    exact ⟨hcount, hcount, exec_eq (.digestOf data) s, exec_eq (.hexDigestOf data) s⟩

/-- Settles O48: each of the two steps stores a state at its own engine, computed from that engine alone, and the stores at
two different engines commute. -/
theorem enginesCommute : Obligations.EnginesCommute := by
  refine ⟨fun n i => Vector.getElem_replicate i.isLt, fun n sys j k hjk => ?_⟩
  obtain ⟨t, ht, -⟩ := everyStepAnswers sys[j]
  obtain ⟨u, hu, -⟩ := everyStepAnswers sys[k]
  have hu' : step (sys.set j t)[k] = .next u := by rw [getElem_set_of_ne sys hjk.symm, hu]
  have ht' : step (sys.set k u)[j] = .next t := by rw [getElem_set_of_ne sys hjk, ht]
  refine ⟨sys.set j t, sys.set k u, (sys.set j t).set k u, stepEngine_of_step ht, stepEngine_of_step hu,
    stepEngine_of_step hu', ?commute, fun i hi => getElem_set_of_ne sys hi t, ?own⟩
  case commute =>
    rw [stepEngine_of_step ht', Vector.set_comm _ _ fun h => hjk (Fin.ext h)]
  case own =>
    rw [ht]
    exact congrArg _ (Vector.getElem_set_self j.isLt).symm

end
